-- ==== Sys2Proof/Word.lean ====
section
/-! DEFINITION. The value types of the machine: bytes, words, operand fields, register indexes, and the explicit narrowings of 00_scope.md R8. -/

namespace Sys2Proof

/-- An 8-bit value: a general register, a timer, a memory cell, an immediate (00_scope.md R5, R8). -/
abbrev Byte := BitVec 8

/-- A 16-bit value: the opcode, I, PC and a stack entry (00_scope.md R5). -/
abbrev Word := BitVec 16

/-- A 4-bit value: the row count `n` and a key code (30_encoding.md R71, 44_input_timer_random.md R230). -/
abbrev Nibble := BitVec 4

/-- A 12-bit address field `nnn` (30_encoding.md R71). -/
abbrev Addr12 := BitVec 12

/-- A general register's index, 0x0–0xF (10_state.md R20). -/
abbrev RegIdx := Fin 16

/-- `trunc8(v)`: `v mod 256` (00_scope.md R8). -/
def trunc8 (v : Nat) : Byte := BitVec.ofNat 8 v

/-- `trunc16(v)`: `v mod 65536` (00_scope.md R8). -/
def trunc16 (v : Nat) : Word := BitVec.ofNat 16 v

/-- `zext_16(nnn)` (00_scope.md R8, 30_encoding.md R80). -/
def zext16 (nnn : Addr12) : Word := nnn.setWidth 16

/-- `zext_8(f)` of a one-bit flag (00_scope.md R8, 41_load_alu.md R141). -/
def flagByte (f : Bool) : Byte := if f then 1#8 else 0#8

end Sys2Proof
end

