-- ==== Sys2Proof/Syntax.lean ====
section
/-! DEFINITION. The instructions: one constructor per row of the opcode map (30_encoding.md R85), in the map's order, and one for the words no row matches (R103). -/

namespace Sys2Proof

/-- A decoded instruction. `x`, `y` are register indexes, `kk` an immediate byte, `nnn` a 12-bit address, `n` a nibble.
The nibble of `seVxVy` and `sneVxVy` and the `y` of `shr` and `shl` are ignored by the execution (R78, R150, R152); they are
kept as operands so that a word and its instruction determine each other. -/
inductive Instr where
  /-- 00E0: clear screen (43_display.md R210). -/
  | cls
  /-- 00EE: return from subroutine (40_cycle_and_control.md R105). -/
  | ret
  /-- 1nnn: jump (R107). -/
  | jp (nnn : Addr12)
  /-- 2nnn: call subroutine (R106). -/
  | call (nnn : Addr12)
  /-- 3xkk: skip if register equals immediate (R108). -/
  | seVxKk (x : RegIdx) (kk : Byte)
  /-- 4xkk: skip if register does not equal immediate (R109). -/
  | sneVxKk (x : RegIdx) (kk : Byte)
  /-- 5xyn: skip if registers are equal, `n` ignored (R110). -/
  | seVxVy (x y : RegIdx) (n : Nibble)
  /-- 6xkk: load immediate (41_load_alu.md R143). -/
  | ldVxKk (x : RegIdx) (kk : Byte)
  /-- 7xkk: add immediate, no carry (R144). -/
  | addVxKk (x : RegIdx) (kk : Byte)
  /-- 8xy1: bitwise or (R145). -/
  | or (x y : RegIdx)
  /-- 8xy2: bitwise and (R146). -/
  | and (x y : RegIdx)
  /-- 8xy3: bitwise exclusive or (R147). -/
  | xor (x y : RegIdx)
  /-- 8xy4: add with carry out (R148). -/
  | addVxVy (x y : RegIdx)
  /-- 8xy5: Vx − Vy (R149). -/
  | sub (x y : RegIdx)
  /-- 8xy6: shift Vx right by 1, `y` ignored (R150). -/
  | shr (x y : RegIdx)
  /-- 8xy7: Vy − Vx (R151). -/
  | subn (x y : RegIdx)
  /-- 8xyE: shift Vx left by 1, `y` ignored (R152). -/
  | shl (x y : RegIdx)
  /-- 8xy0: copy (R153). -/
  | ldVxVy (x y : RegIdx)
  /-- 9xyn: skip if registers differ, `n` ignored (40_cycle_and_control.md R111). -/
  | sneVxVy (x y : RegIdx) (n : Nibble)
  /-- Annn: set address register (42_address_memory.md R171). -/
  | ldI (nnn : Addr12)
  /-- Bnnn: jump with offset V0 (40_cycle_and_control.md R112). -/
  | jpV0 (nnn : Addr12)
  /-- Cxkk: random-masked load (44_input_timer_random.md R231). -/
  | rnd (x : RegIdx) (kk : Byte)
  /-- Dxyn: sprite blit of `n` rows (43_display.md R211). -/
  | drw (x y : RegIdx) (n : Nibble)
  /-- Ex9E: skip if the key is pressed (44_input_timer_random.md R232). -/
  | skp (x : RegIdx)
  /-- ExA1: skip if the key is not pressed (R233). -/
  | sknp (x : RegIdx)
  /-- Fx07: read delay timer (R234). -/
  | ldVxDt (x : RegIdx)
  /-- Fx15: set delay timer (R235). -/
  | ldDtVx (x : RegIdx)
  /-- Fx18: set sound timer (R236). -/
  | ldStVx (x : RegIdx)
  /-- Fx0A: wait for a key (R237). -/
  | ldVxK (x : RegIdx)
  /-- Fx1E: add register to address register (42_address_memory.md R172). -/
  | addIVx (x : RegIdx)
  /-- Fx29: font glyph address (R173). -/
  | ldFVx (x : RegIdx)
  /-- Fx33: BCD store (R174). -/
  | ldBVx (x : RegIdx)
  /-- Fx55: register dump of V0..Vx (R175). -/
  | ldMemVx (x : RegIdx)
  /-- Fx65: register load of V0..Vx (R176). -/
  | ldVxMem (x : RegIdx)
  /-- 0nnn other than 00E0 and 00EE: the classic SYS, tag UNKNOWN (40_cycle_and_control.md R104). -/
  | sys (nnn : Addr12)
  /-- Any word no row of the map matches (R103). -/
  | unknown (op : Word)
  deriving DecidableEq, Repr

end Sys2Proof
end

