-- ==== Sys2Proof/WellFormed.lean ====
section
/-! DEFINITION. The opcode map of 30_encoding.md R85 as masks and matches, and which terms of Instr stand for a word (well-formed). -/

namespace Sys2Proof

/-- The decoder's tags: the 34 instruction tags of R85 and UNKNOWN (30_encoding.md R72). -/
inductive Tag where
  | cls
  | ret
  | jp
  | call
  | seVxKk
  | sneVxKk
  | seVxVy
  | ldVxKk
  | addVxKk
  | or
  | and
  | xor
  | addVxVy
  | sub
  | shr
  | subn
  | shl
  | ldVxVy
  | sneVxVy
  | ldI
  | jpV0
  | rnd
  | drw
  | skp
  | sknp
  | ldVxDt
  | ldDtVx
  | ldStVx
  | ldVxK
  | addIVx
  | ldFVx
  | ldBVx
  | ldMemVx
  | ldVxMem
  | unknown
  deriving DecidableEq, Repr

/-- One row of the map: a word `op` selects the row when `op & mask = value` (R85). -/
structure MapRow where
  mask : Word
  value : Word
  tag : Tag
  deriving DecidableEq, Repr

/-- Rows 1 to 18 of R85. -/
def opcodeMapLow : List MapRow := [
  ⟨0xFFFF#16, 0x00E0#16, .cls⟩,
  ⟨0xFFFF#16, 0x00EE#16, .ret⟩,
  ⟨0xF000#16, 0x1000#16, .jp⟩,
  ⟨0xF000#16, 0x2000#16, .call⟩,
  ⟨0xF000#16, 0x3000#16, .seVxKk⟩,
  ⟨0xF000#16, 0x4000#16, .sneVxKk⟩,
  ⟨0xF000#16, 0x5000#16, .seVxVy⟩,
  ⟨0xF000#16, 0x6000#16, .ldVxKk⟩,
  ⟨0xF000#16, 0x7000#16, .addVxKk⟩,
  ⟨0xF00F#16, 0x8001#16, .or⟩,
  ⟨0xF00F#16, 0x8002#16, .and⟩,
  ⟨0xF00F#16, 0x8003#16, .xor⟩,
  ⟨0xF00F#16, 0x8004#16, .addVxVy⟩,
  ⟨0xF00F#16, 0x8005#16, .sub⟩,
  ⟨0xF00F#16, 0x8006#16, .shr⟩,
  ⟨0xF00F#16, 0x8007#16, .subn⟩,
  ⟨0xF00F#16, 0x800E#16, .shl⟩,
  ⟨0xF00F#16, 0x8000#16, .ldVxVy⟩]

/-- Rows 19 to 35 of R85; row 35 (SYS) carries the tag UNKNOWN. -/
def opcodeMapHigh : List MapRow := [
  ⟨0xF000#16, 0x9000#16, .sneVxVy⟩,
  ⟨0xF000#16, 0xA000#16, .ldI⟩,
  ⟨0xF000#16, 0xB000#16, .jpV0⟩,
  ⟨0xF000#16, 0xC000#16, .rnd⟩,
  ⟨0xF000#16, 0xD000#16, .drw⟩,
  ⟨0xF0FF#16, 0xE09E#16, .skp⟩,
  ⟨0xF0FF#16, 0xE0A1#16, .sknp⟩,
  ⟨0xF0FF#16, 0xF007#16, .ldVxDt⟩,
  ⟨0xF0FF#16, 0xF015#16, .ldDtVx⟩,
  ⟨0xF0FF#16, 0xF018#16, .ldStVx⟩,
  ⟨0xF0FF#16, 0xF00A#16, .ldVxK⟩,
  ⟨0xF0FF#16, 0xF01E#16, .addIVx⟩,
  ⟨0xF0FF#16, 0xF029#16, .ldFVx⟩,
  ⟨0xF0FF#16, 0xF033#16, .ldBVx⟩,
  ⟨0xF0FF#16, 0xF055#16, .ldMemVx⟩,
  ⟨0xF0FF#16, 0xF065#16, .ldVxMem⟩,
  ⟨0xF000#16, 0x0000#16, .unknown⟩]

/-- The complete map of R85, in its order: an earlier row takes priority. -/
def opcodeMap : List MapRow := opcodeMapLow ++ opcodeMapHigh

/-- Does `op` select this row? -/
def MapRow.selects (r : MapRow) (op : Word) : Bool := op &&& r.mask == r.value

/-- The tag the map gives a word: that of the first row it selects, UNKNOWN where there is none (R85, R79). -/
def mapTag (op : Word) : Tag :=
  match opcodeMap.find? (·.selects op) with
  | some r => r.tag
  | none => .unknown

/-- The terms that stand for a word: a SYS is none of CLS and RET (R85 row 35), and an `unknown` word selects no row of the
map. Every other constructor's operands are all encodable. -/
def Instr.wf : Instr → Bool
  | .cls => true
  | .ret => true
  | .jp _ => true
  | .call _ => true
  | .seVxKk _ _ => true
  | .sneVxKk _ _ => true
  | .seVxVy _ _ _ => true
  | .ldVxKk _ _ => true
  | .addVxKk _ _ => true
  | .or _ _ => true
  | .and _ _ => true
  | .xor _ _ => true
  | .addVxVy _ _ => true
  | .sub _ _ => true
  | .shr _ _ => true
  | .subn _ _ => true
  | .shl _ _ => true
  | .ldVxVy _ _ => true
  | .sneVxVy _ _ _ => true
  | .ldI _ => true
  | .jpV0 _ => true
  | .rnd _ _ => true
  | .drw _ _ _ => true
  | .skp _ => true
  | .sknp _ => true
  | .ldVxDt _ => true
  | .ldDtVx _ => true
  | .ldStVx _ => true
  | .ldVxK _ => true
  | .addIVx _ => true
  | .ldFVx _ => true
  | .ldBVx _ => true
  | .ldMemVx _ => true
  | .ldVxMem _ => true
  | .sys nnn => nnn != 0x0E0#12 && nnn != 0x0EE#12
  | .unknown op => opcodeMap.all fun r => !r.selects op

end Sys2Proof
end

