-- ==== Sys2Proof/Decode.lean ====
section
/-! DEFINITION. The decoder block DEC (30_encoding.md R70–R79), the instruction it stands for, decoding a byte sequence, and the encoder of the same map (R85). -/

namespace Sys2Proof

/-- The category `c = op[15:12]` (R71). -/
def fieldC (op : Word) : Nibble := op.extractLsb' 12 4

/-- The field `x = op[11:8]` (R71). -/
def fieldX (op : Word) : RegIdx := (op.extractLsb' 8 4).toFin

/-- The field `y = op[7:4]` (R71). -/
def fieldY (op : Word) : RegIdx := (op.extractLsb' 4 4).toFin

/-- The field `n = op[3:0]` (R71). -/
def fieldN (op : Word) : Nibble := op.extractLsb' 0 4

/-- The field `kk = op[7:0]` (R71). -/
def fieldKk (op : Word) : Byte := op.extractLsb' 0 8

/-- The field `nnn = op[11:0]` (R71). -/
def fieldNnn (op : Word) : Addr12 := op.extractLsb' 0 12

/-- Category 0x0: CLS and RET on all 12 low bits, else UNKNOWN (R74). -/
def decTag0 (nnn : Addr12) : Tag :=
  match nnn with
  | 0x0E0#12 => .cls
  | 0x0EE#12 => .ret
  | _ => .unknown

/-- Category 0x8, by `n` (R75). -/
def decTag8 (n : Nibble) : Tag :=
  match n with
  | 0x1#4 => .or
  | 0x2#4 => .and
  | 0x3#4 => .xor
  | 0x4#4 => .addVxVy
  | 0x5#4 => .sub
  | 0x6#4 => .shr
  | 0x7#4 => .subn
  | 0xE#4 => .shl
  | 0x0#4 => .ldVxVy
  | _ => .unknown

/-- Category 0xE, by `kk` (R76). -/
def decTagE (kk : Byte) : Tag :=
  match kk with
  | 0x9E#8 => .skp
  | 0xA1#8 => .sknp
  | _ => .unknown

/-- Category 0xF, by `kk` (R77). -/
def decTagF (kk : Byte) : Tag :=
  match kk with
  | 0x07#8 => .ldVxDt
  | 0x15#8 => .ldDtVx
  | 0x18#8 => .ldStVx
  | 0x0A#8 => .ldVxK
  | 0x1E#8 => .addIVx
  | 0x29#8 => .ldFVx
  | 0x33#8 => .ldBVx
  | 0x55#8 => .ldMemVx
  | 0x65#8 => .ldVxMem
  | _ => .unknown

/-- The tag, by hierarchical masking: the category first, then the secondary field of categories 0x0, 0x8, 0xE and 0xF
(R73–R78). The last arm is category 0xF. -/
def decTag (op : Word) : Tag :=
  match fieldC op with
  | 0x0#4 => decTag0 (fieldNnn op)
  | 0x1#4 => .jp
  | 0x2#4 => .call
  | 0x3#4 => .seVxKk
  | 0x4#4 => .sneVxKk
  | 0x5#4 => .seVxVy
  | 0x6#4 => .ldVxKk
  | 0x7#4 => .addVxKk
  | 0x8#4 => decTag8 (fieldN op)
  | 0x9#4 => .sneVxVy
  | 0xA#4 => .ldI
  | 0xB#4 => .jpV0
  | 0xC#4 => .rnd
  | 0xD#4 => .drw
  | 0xE#4 => decTagE (fieldKk op)
  | _ => decTagF (fieldKk op)

/-- The outputs of the decoder block: the tag and the five operand fields, all driven for every word (R72). -/
structure DecOut where
  tag : Tag
  x : RegIdx
  y : RegIdx
  n : Nibble
  kk : Byte
  nnn : Addr12
  deriving DecidableEq, Repr

/-- DEC: a total function of the word alone (R72). -/
def dec (op : Word) : DecOut :=
  { tag := decTag op, x := fieldX op, y := fieldY op, n := fieldN op, kk := fieldKk op, nnn := fieldNnn op }

/-- The instruction that DEC's outputs name: each tag takes the fields its row of R85 names. An UNKNOWN word is the row SYS in
category 0x0 (row 35) and matches no row otherwise. -/
def instrOf (d : DecOut) (op : Word) : Instr :=
  match d.tag with
  | .cls => .cls
  | .ret => .ret
  | .jp => .jp d.nnn
  | .call => .call d.nnn
  | .seVxKk => .seVxKk d.x d.kk
  | .sneVxKk => .sneVxKk d.x d.kk
  | .seVxVy => .seVxVy d.x d.y d.n
  | .ldVxKk => .ldVxKk d.x d.kk
  | .addVxKk => .addVxKk d.x d.kk
  | .or => .or d.x d.y
  | .and => .and d.x d.y
  | .xor => .xor d.x d.y
  | .addVxVy => .addVxVy d.x d.y
  | .sub => .sub d.x d.y
  | .shr => .shr d.x d.y
  | .subn => .subn d.x d.y
  | .shl => .shl d.x d.y
  | .ldVxVy => .ldVxVy d.x d.y
  | .sneVxVy => .sneVxVy d.x d.y d.n
  | .ldI => .ldI d.nnn
  | .jpV0 => .jpV0 d.nnn
  | .rnd => .rnd d.x d.kk
  | .drw => .drw d.x d.y d.n
  | .skp => .skp d.x
  | .sknp => .sknp d.x
  | .ldVxDt => .ldVxDt d.x
  | .ldDtVx => .ldDtVx d.x
  | .ldStVx => .ldStVx d.x
  | .ldVxK => .ldVxK d.x
  | .addIVx => .addIVx d.x
  | .ldFVx => .ldFVx d.x
  | .ldBVx => .ldBVx d.x
  | .ldMemVx => .ldMemVx d.x
  | .ldVxMem => .ldVxMem d.x
  | .unknown => if fieldC op = 0x0#4 then .sys d.nnn else .unknown op

/-- The instruction a word stands for; defined for all 65536 words (R72). -/
def decodeWord (op : Word) : Instr := instrOf (dec op) op

/-- Why a byte sequence is not decoded. A whole word always decodes (R72). -/
inductive DecodeError where
  /-- Fewer than the two bytes every instruction has (R70). -/
  | truncated (length : Nat)
  deriving DecidableEq, Repr

/-- The first instruction of a byte sequence, high byte first (R53), and the bytes after it. -/
def decode : List Byte → Except DecodeError (Instr × List Byte)
  | [] => .error (.truncated 0)
  | [_] => .error (.truncated 1)
  | hi :: lo :: rest => .ok (decodeWord (hi ++ lo), rest)

/-- `c x kk` as one word. -/
def wordCXKk (c : Nibble) (x : RegIdx) (kk : Byte) : Word := c ++ BitVec.ofFin (w := 4) x ++ kk

/-- `c x y n` as one word. -/
def wordCXYN (c : Nibble) (x y : RegIdx) (n : Nibble) : Word :=
  c ++ BitVec.ofFin (w := 4) x ++ BitVec.ofFin (w := 4) y ++ n

/-- `c nnn` as one word. -/
def wordCNnn (c : Nibble) (nnn : Addr12) : Word := c ++ nnn

/-- The word of an instruction, from the patterns of R85. -/
def encode : Instr → Word
  | .cls => 0x00E0#16
  | .ret => 0x00EE#16
  | .jp nnn => wordCNnn 0x1#4 nnn
  | .call nnn => wordCNnn 0x2#4 nnn
  | .seVxKk x kk => wordCXKk 0x3#4 x kk
  | .sneVxKk x kk => wordCXKk 0x4#4 x kk
  | .seVxVy x y n => wordCXYN 0x5#4 x y n
  | .ldVxKk x kk => wordCXKk 0x6#4 x kk
  | .addVxKk x kk => wordCXKk 0x7#4 x kk
  | .or x y => wordCXYN 0x8#4 x y 0x1#4
  | .and x y => wordCXYN 0x8#4 x y 0x2#4
  | .xor x y => wordCXYN 0x8#4 x y 0x3#4
  | .addVxVy x y => wordCXYN 0x8#4 x y 0x4#4
  | .sub x y => wordCXYN 0x8#4 x y 0x5#4
  | .shr x y => wordCXYN 0x8#4 x y 0x6#4
  | .subn x y => wordCXYN 0x8#4 x y 0x7#4
  | .shl x y => wordCXYN 0x8#4 x y 0xE#4
  | .ldVxVy x y => wordCXYN 0x8#4 x y 0x0#4
  | .sneVxVy x y n => wordCXYN 0x9#4 x y n
  | .ldI nnn => wordCNnn 0xA#4 nnn
  | .jpV0 nnn => wordCNnn 0xB#4 nnn
  | .rnd x kk => wordCXKk 0xC#4 x kk
  | .drw x y n => wordCXYN 0xD#4 x y n
  | .skp x => wordCXKk 0xE#4 x 0x9E#8
  | .sknp x => wordCXKk 0xE#4 x 0xA1#8
  | .ldVxDt x => wordCXKk 0xF#4 x 0x07#8
  | .ldDtVx x => wordCXKk 0xF#4 x 0x15#8
  | .ldStVx x => wordCXKk 0xF#4 x 0x18#8
  | .ldVxK x => wordCXKk 0xF#4 x 0x0A#8
  | .addIVx x => wordCXKk 0xF#4 x 0x1E#8
  | .ldFVx x => wordCXKk 0xF#4 x 0x29#8
  | .ldBVx x => wordCXKk 0xF#4 x 0x33#8
  | .ldMemVx x => wordCXKk 0xF#4 x 0x55#8
  | .ldVxMem x => wordCXKk 0xF#4 x 0x65#8
  | .sys nnn => wordCNnn 0x0#4 nnn
  | .unknown op => op

/-- A word as memory stores it: high byte at the lower address (R53). -/
def wordBytes (op : Word) : List Byte := [op.extractLsb' 8 8, op.extractLsb' 0 8]

/-- The bytes of an instruction as memory stores them. -/
def encodeBytes (i : Instr) : List Byte := wordBytes (encode i)

/-- What the decoder reads from a table row's bits `w`, numbered as spec/opcode_table.json numbers them: the row's one word,
its bits above `nbits` zero, laid out in bytes as memory stores it. -/
def decodeTableWord (nbits w : Nat) : Option Instr :=
  match decode (wordBytes (BitVec.ofNat 16 (w % 2 ^ nbits))) with
  | .ok (i, _) => some i
  | .error _ => none

end Sys2Proof
end

