-- ==== Sys2Proof/Config.lean ====
section
/-! DEFINITION. The fixed parameters of the hardware (00_scope.md R5) and the free values: the key sample and the random byte of each CPU tick. -/

namespace Sys2Proof

/-- One input sample of the key port: a key code 0x0–0xF and the pressed flag (44_input_timer_random.md R230). -/
structure KeySample where
  code : Nibble
  pressed : Bool
  deriving DecidableEq, Repr, Inhabited

/-- `MEMSIZE`: 4096 bytes (R5). -/
def Config.memSize : Nat := 4096

/-- `LOAD_OFFSET`: the program load offset and initial PC (R5). -/
def Config.loadOffset : Nat := 0x200

/-- `FONT_BASE`: the font's address (R5). -/
def Config.fontBase : Nat := 0x000

/-- The longest image a launch may load: 4096 − 0x200 (70_reset_and_hazards.md R302). -/
def Config.maxImage : Nat := 3584

/-- The key sample of the k-th unscheduled CPU tick: a FREE VALUE, any `(key_code, pressed)` may occur at any tick
(44_input_timer_random.md R230, D21; log entry 3). -/
opaque Config.freeKey : Nat → KeySample

/-- The random byte of the k-th unscheduled CPU tick: a FREE VALUE with no law (R231, D20; log entry 3). -/
opaque Config.freeRand : Nat → Byte

end Sys2Proof
end

