-- ==== Sys2Proof/Machine/State.lean ====
section
/-! DEFINITION. The state of the CORE as plain data, the reasons a fatal error is raised, the reasons of a refusal, and the state after reset. -/

namespace Sys2Proof.Machine

/-- Memory `M` as the cells that differ from the reset contents: addresses strictly rising, below 4096, no entry equal to what
an unlisted address reads as (20_memory.md R50; the form is `Memory.wf` in Machine/Memory.lean). -/
abbrev Memory := List Host.Cell

/-- `FB`: 32 rows of 64 cells, `fb[y][x]`, true for a set pixel (10_state.md R28, 43_display.md R200). -/
abbrev Framebuffer := Vector (Vector Bool 64) 32

/-- The three strobes that drive the core (00_scope.md R6). A CPU tick carries its inputs (R12). -/
inductive Tick where
  /-- `cpu_tick`, with the sampled `key_code`/`key_pressed` and `rand` ports (40_cycle_and_control.md R100). -/
  | cpu (key : KeySample) (rand : Byte)
  /-- `timer_tick` (60_exceptions.md R275). -/
  | timer
  /-- `display_tick` (R278). -/
  | display
  deriving DecidableEq, Repr

/-- What the core sends to the presentation adapter (60_exceptions.md R279). -/
inductive Output where
  /-- One pulse on `beep` (R276). -/
  | beep
  /-- The cells on `fb_snapshot` handed to `render` (R278). -/
  | render (snapshot : Framebuffer)
  deriving DecidableEq, Repr

/-- The fatal errors of 60_exceptions.md R261, raised INSIDE a CPU tick. The spec describes what each does to the state (R260,
R262), so `State.raiseFatal` turns it into the halted NEXT state: no step of this machine answers `.fault` (log entry 6). -/
inductive Fault where
  /-- Raised by SYS and by every word DEC classifies UNKNOWN (R103, R104). Safe: it ends in the halted state the spec gives. -/
  | unknownOpcode
  /-- Raised by RET on an empty stack (R105). Safe: it ends in the halted state the spec gives. -/
  | stackUnderflow
  /-- Raised by CALL on a full stack (R106, D6). Safe: it ends in the halted state the spec gives. -/
  | stackOverflow
  /-- Raised by the fetch, DRW, LD B, LD [I] and LD Vx,[I] on an address ≥ 0x1000 (R52, D3). Safe: it ends in the halted state
  the spec gives. -/
  | memoryOutOfRange (addr : Nat)
  deriving DecidableEq, Repr

/-- Why a request is refused. -/
inductive Refusal where
  /-- Raised by `exec` alone, for an instruction that has no meaning yet; no arm answers it now. Safe: nothing runs. -/
  | notModelled (mnemonic : String)
  /-- Raised by `State.load` alone, for a program image longer than 3584 bytes: the spec refuses the launch (70_reset_and_hazards.md
  R302, D19). Safe: there is no state after it. -/
  | imageTooLong (length : Nat)
  deriving DecidableEq, Repr

/-- Everything the spec gives the machine (10_state.md R20–R34), then the model's own fields: the parameter `STACK_DEPTH`, the
input ports, the strobes to come, and the record of outputs. -/
structure State where
  /-- V0–VF (R20); V[15] is VF, the flag register (R21). -/
  v : Vector Byte 16
  /-- The address register I (R24). -/
  i : Word
  /-- The program counter (R25). -/
  pc : Word
  /-- The call stack, top at the end (R26). -/
  stack : List Word
  /-- The delay timer DT (R27). -/
  dt : Byte
  /-- The sound timer ST (R27). -/
  st : Byte
  /-- The framebuffer FB (R28). -/
  fb : Framebuffer
  /-- The memory M (R29). -/
  mem : Memory
  /-- HALTED (R30). -/
  halted : Bool
  /-- FATAL_CAUSE (R30), coded as 60_exceptions.md R261. -/
  fatalCause : BitVec 3
  /-- FATAL_OPCODE (R30, R262). -/
  fatalOpcode : Word
  /-- FATAL_PC (R30, R262). -/
  fatalPc : Word
  /-- FATAL_ADDR (R30, R262). -/
  fatalAddr : Word
  /-- The parameter STACK_DEPTH, none where unbounded; no step changes it (00_scope.md R5, D6; log entry 1). -/
  stackDepth : Option Nat
  /-- The key input port: the sample of the CPU tick that runs (R12; log entry 3). -/
  key : KeySample
  /-- The random input port: the draw of the CPU tick that runs (R12; log entry 3). -/
  rand : Byte
  /-- The strobes to come, oldest first (R304, R305; log entry 4). -/
  schedule : List Tick
  /-- How many CPU ticks have run on free inputs (log entry 3). -/
  draws : Nat
  /-- What the core has sent, newest first (R276, R278; log entry 5). -/
  outputs : List Output
  deriving DecidableEq, Repr

/-- The state after reset (10_state.md R34, 70_reset_and_hazards.md R300), with no program image loaded; the last six fields
are the model's own (log entries 1, 3, 4, 5). -/
def State.reset : State :=
  { v := Vector.replicate 16 0x00#8
    i := 0x0000#16
    pc := 0x0200#16
    stack := []
    dt := 0x00#8
    st := 0x00#8
    fb := Vector.replicate 32 (Vector.replicate 64 false)
    mem := []
    halted := false
    fatalCause := 0#3
    fatalOpcode := 0x0000#16
    fatalPc := 0x0000#16
    fatalAddr := 0x0000#16
    stackDepth := none
    key := { code := 0x0#4, pressed := false }
    rand := 0x00#8
    schedule := []
    draws := 0
    outputs := [] }

end Sys2Proof.Machine
end

