-- ==== Sys2Proof/Machine/Framebuffer.lean ====
section
/-! DEFINITION. The framebuffer block: pixel primitives, wrap-around addressing, the collision detector and the sprite blit (43_display.md R200–R203, R211). -/

namespace Sys2Proof.Machine

/-- `FB[y][x]`: column `x`, row `y` (R200). -/
def Framebuffer.pixel (fb : Framebuffer) (x : Fin 64) (y : Fin 32) : Bool := fb[y][x]

/-- One cell written. -/
def Framebuffer.put (fb : Framebuffer) (x : Fin 64) (y : Fin 32) (b : Bool) : Framebuffer := fb.set y (fb[y].set x b)

/-- `FbClearAll()` (R201). -/
def Framebuffer.clearAll : Framebuffer := Vector.replicate 32 (Vector.replicate 64 false)

/-- `FbSet(x, y)`: a primitive no instruction drives (R201). -/
def Framebuffer.setPixel (fb : Framebuffer) (x : Fin 64) (y : Fin 32) : Framebuffer := fb.put x y true

/-- `FbClear(x, y)`: a primitive no instruction drives (R201). -/
def Framebuffer.clearPixel (fb : Framebuffer) (x : Fin 64) (y : Fin 32) : Framebuffer := fb.put x y false

/-- `FbToggle(x, y)`, its effect; it returns the old value, `pixel x y` (R201). -/
def Framebuffer.toggle (fb : Framebuffer) (x : Fin 64) (y : Fin 32) : Framebuffer := fb.put x y (!fb.pixel x y)

/-- The column of `Wrap`: `px mod 64` (R202). -/
def wrapX (px : Nat) : Fin 64 := ⟨px % 64, Nat.mod_lt _ (by decide)⟩

/-- The row of `Wrap`: `py mod 32` (R202). -/
def wrapY (py : Nat) : Fin 32 := ⟨py % 32, Nat.mod_lt _ (by decide)⟩

/-- A blit under way: the cells so far and the collision detector's latch (R203). -/
structure Blit where
  fb : Framebuffer
  collision : Bool
  deriving DecidableEq, Repr

/-- One toggle of a blit at an unreduced coordinate: wrap, toggle, and latch a collision where a set pixel was unset (R202, R203). -/
def Blit.toggleAt (b : Blit) (px py : Nat) : Blit :=
  { fb := b.fb.toggle (wrapX px) (wrapY py)
    collision := b.collision || b.fb.pixel (wrapX px) (wrapY py) }

/-- Column `c` of a sprite row: bit 7 − c decides whether the pixel toggles, most significant bit first (R200, R211). -/
def Blit.column (row : Byte) (ox py : Nat) (b : Blit) (c : Nat) : Blit :=
  if row.getLsbD (7 - c) then b.toggleAt (ox + c) py else b

/-- One sprite row of 8 columns, left to right (R211). -/
def Blit.row (row : Byte) (ox py : Nat) (b : Blit) : Blit := (List.range 8).foldl (Blit.column row ox py) b

/-- The rows of a sprite, downwards (R211). -/
def Blit.rows (ox : Nat) : Nat → List Byte → Blit → Blit
  | _, [], b => b
  | py, row :: rest, b => Blit.rows ox (py + 1) rest (Blit.row row ox py b)

/-- A whole blit: the detector starts at 0 (R203). -/
def blit (fb : Framebuffer) (ox oy : Nat) (sprite : List Byte) : Blit :=
  Blit.rows ox oy sprite { fb := fb, collision := false }

end Sys2Proof.Machine
end

