-- ==== Sys2Proof/Machine/Memory.lean ====
section
/-! DEFINITION. The memory M: its reset contents, its canonical form, reading and writing one byte, writing a run of bytes (20_memory.md R50–R52). -/

namespace Sys2Proof.Machine

/-- Glyphs 0 to 7 of the default FONT (93_implementation_defined.md G4). -/
def fontLow : List Byte := [
  0xF0, 0x90, 0x90, 0x90, 0xF0,
  0x20, 0x60, 0x20, 0x20, 0x70,
  0xF0, 0x10, 0xF0, 0x80, 0xF0,
  0xF0, 0x10, 0xF0, 0x10, 0xF0,
  0x90, 0x90, 0xF0, 0x10, 0x10,
  0xF0, 0x80, 0xF0, 0x10, 0xF0,
  0xF0, 0x80, 0xF0, 0x90, 0xF0,
  0xF0, 0x10, 0x20, 0x40, 0x40]

/-- Glyphs 8 to F of the default FONT (93_implementation_defined.md G4). -/
def fontHigh : List Byte := [
  0xF0, 0x90, 0xF0, 0x90, 0xF0,
  0xF0, 0x90, 0xF0, 0x10, 0xF0,
  0xF0, 0x90, 0xF0, 0x90, 0x90,
  0xE0, 0x90, 0xE0, 0x90, 0xE0,
  0xF0, 0x80, 0x80, 0x80, 0xF0,
  0xE0, 0x90, 0x90, 0x90, 0xE0,
  0xF0, 0x80, 0xF0, 0x80, 0xF0,
  0xF0, 0x80, 0xF0, 0x80, 0x80]

/-- The default FONT, 80 bytes (D14, G4). PRESUMED: from general knowledge, as the spec says; unsafe for claims about font
pixels (log entry 2). -/
def defaultFont : List Byte := fontLow ++ fontHigh

/-- What an unlisted address reads as: the reset contents, the font at FONT_BASE = 0x000 and zero elsewhere (10_state.md R34,
20_memory.md R51). -/
def Memory.unlisted (a : Nat) : Byte := defaultFont.getD a 0x00#8

/-- `M[a]`. -/
def Memory.read (m : Memory) (a : Nat) : Byte :=
  match m.find? (fun c => c.1 == a) with
  | some c => c.2
  | none => Memory.unlisted a

/-- A cell put in its place by address. -/
def Memory.insert (a : Nat) (b : Byte) : Memory → Memory
  | [] => [(a, b)]
  | c :: m => if c.1 < a then c :: Memory.insert a b m else (a, b) :: c :: m

/-- `M[a] <- b`: the old entry goes, and the new one is listed unless it is what the address reads as unlisted. -/
def Memory.write (m : Memory) (a : Nat) (b : Byte) : Memory :=
  let others := m.filter (fun c => c.1 != a)
  if b = Memory.unlisted a then others else Memory.insert a b others

/-- Bytes written at `a`, `a + 1`, … -/
def Memory.fill (m : Memory) (a : Nat) : List Byte → Memory
  | [] => m
  | b :: bs => Memory.fill (m.write a b) (a + 1) bs

/-- The canonical form: addresses strictly rising and below 4096, no entry equal to what its address reads as unlisted. -/
abbrev Memory.wf (m : Memory) : Prop :=
  m.Pairwise (fun c d => c.1 < d.1) ∧ ∀ c ∈ m, c.1 < Config.memSize ∧ c.2 ≠ Memory.unlisted c.1

end Sys2Proof.Machine
end

