-- ==== Sys2Proof/Machine/Ops.lean ====
section
/-! DEFINITION. The named operations over the state: registers, the PC, range-checked memory accesses, the stack controller, and taking a fatal error (the only exception; there is no return from one, 60_exceptions.md R260, R265). -/

namespace Sys2Proof.Machine

/-- What a meaning answers. -/
abbrev Answer := Host.Outcome State Fault Refusal

/-- `V[x]` (00_scope.md R9). -/
def State.getV (s : State) (x : RegIdx) : Byte := s.v[x]

/-- `V[x] <- b` (R9). -/
def State.setV (s : State) (x : RegIdx) (b : Byte) : State := { s with v := s.v.set x b }

/-- The index of VF (10_state.md R21). -/
def vf : RegIdx := 15

/-- `I <- w` (R24). -/
def State.setI (s : State) (w : Word) : State := { s with i := w }

/-- `next_pc <- target` (40_cycle_and_control.md R101). -/
def State.setPc (s : State) (target : Word) : State := { s with pc := target }

/-- The default advance: `trunc16(PC + 2)` (R101). -/
def State.advance (s : State) : State := s.setPc (trunc16 (s.pc.toNat + 2))

/-- A skip: `trunc16(PC + 4)` where its condition holds, the default advance otherwise (R102). -/
def State.skipIf (s : State) (condition : Bool) : State :=
  if condition then s.setPc (trunc16 (s.pc.toNat + 4)) else s.advance

/-- `DT <- b` (10_state.md R27). -/
def State.setDt (s : State) (b : Byte) : State := { s with dt := b }

/-- `ST <- b` (R27). -/
def State.setSt (s : State) (b : Byte) : State := { s with st := b }

/-- The framebuffer replaced (R28). -/
def State.setFb (s : State) (fb : Framebuffer) : State := { s with fb := fb }

/-- The memory replaced (R29). -/
def State.setMem (s : State) (m : Memory) : State := { s with mem := m }

/-- The stack replaced (R26). -/
def State.setStack (s : State) (stk : List Word) : State := { s with stack := stk }

/-- One output sent to the presentation adapter (60_exceptions.md R279; log entry 5). -/
def State.emit (s : State) (o : Output) : State := { s with outputs := o :: s.outputs }

/-- The input ports as a CPU tick samples them (00_scope.md R12). -/
def State.sample (s : State) (key : KeySample) (rand : Byte) : State := { s with key := key, rand := rand }

/-- `MemRead(a, 1)`: range-checked (00_scope.md R10, 20_memory.md R52). -/
def State.memRead (s : State) (a : Nat) : Except Fault Byte :=
  if a < Config.memSize then .ok (s.mem.read a) else .error (.memoryOutOfRange a)

/-- `MemWrite(a, 1, b)`: range-checked (R10, R52). -/
def State.memWrite (s : State) (a : Nat) (b : Byte) : Except Fault State :=
  if a < Config.memSize then .ok (s.setMem (s.mem.write a b)) else .error (.memoryOutOfRange a)

/-- `count` byte reads at `a`, `a + 1`, …, in increasing order with natural sums (20_memory.md R55). -/
def State.readBlock (s : State) : Nat → Nat → Except Fault (List Byte)
  | _, 0 => .ok []
  | a, count + 1 =>
    match s.memRead a with
    | .error f => .error f
    | .ok b =>
      match s.readBlock (a + 1) count with
      | .error f => .error f
      | .ok bs => .ok (b :: bs)

/-- Byte writes at `a`, `a + 1`, …, in increasing order with natural sums; on a fault none is kept (R55, 00_scope.md R11). -/
def State.writeBlock (s : State) : Nat → List Byte → Except Fault State
  | _, [] => .ok s
  | a, b :: bs =>
    match s.memWrite a b with
    | .error f => .error f
    | .ok t => t.writeBlock (a + 1) bs

/-- The fetch: `M[PC] ++ M[PC + 1]`, big-endian, the second address a natural sum (R53). -/
def State.fetch (s : State) : Except Fault Word :=
  match s.memRead s.pc.toNat with
  | .error f => .error f
  | .ok hi =>
    match s.memRead (s.pc.toNat + 1) with
    | .error f => .error f
    | .ok lo => .ok (hi ++ lo)

/-- `full`: the stack holds STACK_DEPTH entries; never where the depth is unbounded (10_state.md R26, D6). -/
def State.stackFull (s : State) : Bool :=
  match s.stackDepth with
  | some depth => decide (depth ≤ s.stack.length)
  | none => false

/-- `push(v)` (R26). -/
def State.push (s : State) (w : Word) : Except Fault State :=
  if s.stackFull then .error .stackOverflow else .ok (s.setStack (s.stack ++ [w]))

/-- `pop()`: the last entry and the state without it (R26). -/
def State.pop (s : State) : Except Fault (Word × State) :=
  match s.stack.getLast? with
  | some w => .ok (w, s.setStack s.stack.dropLast)
  | none => .error .stackUnderflow

/-- FATAL_CAUSE's code (60_exceptions.md R261). -/
def Fault.code : Fault → BitVec 3
  | .unknownOpcode => 1#3
  | .stackUnderflow => 2#3
  | .stackOverflow => 3#3
  | .memoryOutOfRange _ => 4#3

/-- FATAL_ADDR's value: the failing address, 0x0000 for the other causes (R262). -/
def Fault.address : Fault → Word
  | .unknownOpcode => 0x0000#16
  | .stackUnderflow => 0x0000#16
  | .stackOverflow => 0x0000#16
  | .memoryOutOfRange a => trunc16 a

/-- TAKING A FATAL ERROR, the one exception: HALTED is set and the diagnostic latched; nothing else changes, so PC keeps the
faulting instruction's address (10_state.md R30, 60_exceptions.md R260, R262). -/
def State.raiseFatal (s : State) (f : Fault) (op : Word) : State :=
  { s with halted := true, fatalCause := f.code, fatalOpcode := op, fatalPc := s.pc, fatalAddr := f.address }

/-- How an instruction's work on `s` ends: its result, or the fatal error with none of the work kept (00_scope.md R11). -/
def State.orFatal (s : State) (op : Word) : Except Fault State → Answer
  | .ok t => .next t
  | .error f => .next (s.raiseFatal f op)

end Sys2Proof.Machine
end

