-- ==== Sys2Proof/Machine/Operands.lean ====
section
/-! DEFINITION. The operand forms: the block at I, register runs V0..Vx, the decimal digits of a register, the font address, the key match (30_encoding.md R80, R81). -/

namespace Sys2Proof.Machine

/-- The base of the block at I, a natural number: offsets are added with no wrap (42_address_memory.md R170). -/
def State.base (s : State) : Nat := s.i.toNat

/-- The bytes of V[0], …, V[x], in increasing order (R175). -/
def State.dumpRegs (s : State) (x : RegIdx) : List Byte := s.v.toList.take (x.val + 1)

/-- Bytes put into V[k], V[k + 1], …, in increasing order (R176). -/
def State.loadRegs (s : State) : Nat → List Byte → State
  | _, [] => s
  | k, b :: bs => (s.setV (Fin.ofNat 16 k) b).loadRegs (k + 1) bs

/-- The decimal digits of a byte: hundreds, tens, ones (R174). -/
def bcdDigits (b : Byte) : List Byte :=
  [trunc8 (b.toNat / 100), trunc8 (b.toNat / 10 % 10), trunc8 (b.toNat % 10)]

/-- The address of the glyph a register names: its full value times 5 (R173). -/
def glyphAddress (b : Byte) : Word := trunc16 (b.toNat * 5)

/-- The target of JP V0: `trunc16(zext_16(nnn) + V[0])` (40_cycle_and_control.md R112). -/
def State.offsetTarget (s : State) (nnn : Addr12) : Word := trunc16 ((zext16 nnn).toNat + (s.getV 0).toNat)

/-- SKP's condition: a key is pressed and its code is the register's low nibble (44_input_timer_random.md R232). -/
def State.keyMatches (s : State) (x : RegIdx) : Bool :=
  s.key.pressed && s.key.code == (s.getV x).extractLsb' 0 4

end Sys2Proof.Machine
end

