-- ==== Sys2Proof/Machine/AddressMemory.lean ====
section
/-! DEFINITION. The address register and memory instructions (42_address_memory.md R170–R176). -/

namespace Sys2Proof.Machine

/-- LD I, nnn (R171). -/
def execLdI (nnn : Addr12) (s : State) : Answer := .next (s.setI (zext16 nnn)).advance

/-- ADD I, Vx: 16-bit truncation, no flag (R172). -/
def execAddIVx (x : RegIdx) (s : State) : Answer :=
  .next (s.setI (trunc16 (s.i.toNat + (s.getV x).toNat))).advance

/-- LD F, Vx (R173). -/
def execLdFVx (x : RegIdx) (s : State) : Answer := .next (s.setI (glyphAddress (s.getV x))).advance

/-- LD B, Vx: three digits at I, I + 1, I + 2 (R174). -/
def execLdBVx (x : RegIdx) (s : State) : Answer :=
  s.orFatal (encode (.ldBVx x)) <|
    match s.writeBlock s.base (bcdDigits (s.getV x)) with
    | .error f => .error f
    | .ok t => .ok t.advance

/-- LD [I], Vx: V0..Vx to the block at I; I unchanged (R175). -/
def execLdMemVx (x : RegIdx) (s : State) : Answer :=
  s.orFatal (encode (.ldMemVx x)) <|
    match s.writeBlock s.base (s.dumpRegs x) with
    | .error f => .error f
    | .ok t => .ok t.advance

/-- LD Vx, [I]: V0..Vx from the block at I; I unchanged (R176). -/
def execLdVxMem (x : RegIdx) (s : State) : Answer :=
  s.orFatal (encode (.ldVxMem x)) <|
    match s.readBlock s.base (x.val + 1) with
    | .error f => .error f
    | .ok bytes => .ok (s.loadRegs 0 bytes).advance

end Sys2Proof.Machine
end

