-- ==== Sys2Proof/Machine/Flags.lean ====
section
/-! DEFINITION. The ALU block: results, flags and flag-write enables, and the write order that puts the flag last (41_load_alu.md R140–R142). -/

namespace Sys2Proof.Machine

/-- The ALU's function select (R140). -/
inductive AluFn where
  | pass
  | addnc
  | or
  | and
  | xor
  | add
  | sub
  | subn
  | shr
  | shl
  deriving DecidableEq, Repr

/-- The output `r` (R140): computed over the naturals, then narrowed. -/
def aluResult (fn : AluFn) (a b : Byte) : Byte :=
  match fn with
  | .pass => b
  | .addnc => trunc8 (a.toNat + b.toNat)
  | .or => a ||| b
  | .and => a &&& b
  | .xor => a ^^^ b
  | .add => trunc8 (a.toNat + b.toNat)
  | .sub => trunc8 (a.toNat + 256 - b.toNat)
  | .subn => trunc8 (b.toNat + 256 - a.toNat)
  | .shr => trunc8 (a.toNat / 2)
  | .shl => trunc8 (a.toNat * 2)

/-- The outputs `f` and `fwe` together: the flag where the function writes one (R140; the equal case of SUB and SUBN is 0,
90_conflicts.md C1). -/
def aluFlag (fn : AluFn) (a b : Byte) : Option Bool :=
  match fn with
  | .pass => none
  | .addnc => none
  | .or => none
  | .and => none
  | .xor => none
  | .add => some (decide (255 < a.toNat + b.toNat))
  | .sub => some (decide (b.toNat < a.toNat))
  | .subn => some (decide (a.toNat < b.toNat))
  | .shr => some (a.getLsbD 0)
  | .shl => some (a.getLsbD 7)

/-- The flag write, where there is one: `V[15] <- zext_8(f)` (R141). -/
def State.writeFlag (s : State) (f : Option Bool) : State :=
  match f with
  | some b => s.setV vf (flagByte b)
  | none => s

/-- An ALU instruction: inputs sampled first, then `V[x] <- r`, then the flag, then the default advance (R141). -/
def State.alu (s : State) (fn : AluFn) (x : RegIdx) (a b : Byte) : State :=
  ((s.setV x (aluResult fn a b)).writeFlag (aluFlag fn a b)).advance

end Sys2Proof.Machine
end

