-- ==== Sys2Proof/Machine/Alu.lean ====
section
/-! DEFINITION. Immediate loads and the register-to-register operations (41_load_alu.md R143–R153). -/

namespace Sys2Proof.Machine

/-- LD Vx, kk (R143). -/
def execLdVxKk (x : RegIdx) (kk : Byte) (s : State) : Answer := .next (s.alu .pass x (s.getV x) kk)

/-- ADD Vx, kk: no flag (R144). -/
def execAddVxKk (x : RegIdx) (kk : Byte) (s : State) : Answer := .next (s.alu .addnc x (s.getV x) kk)

/-- OR Vx, Vy (R145). -/
def execOr (x y : RegIdx) (s : State) : Answer := .next (s.alu .or x (s.getV x) (s.getV y))

/-- AND Vx, Vy (R146). -/
def execAnd (x y : RegIdx) (s : State) : Answer := .next (s.alu .and x (s.getV x) (s.getV y))

/-- XOR Vx, Vy (R147). -/
def execXor (x y : RegIdx) (s : State) : Answer := .next (s.alu .xor x (s.getV x) (s.getV y))

/-- ADD Vx, Vy (R148). -/
def execAddVxVy (x y : RegIdx) (s : State) : Answer := .next (s.alu .add x (s.getV x) (s.getV y))

/-- SUB Vx, Vy (R149). -/
def execSub (x y : RegIdx) (s : State) : Answer := .next (s.alu .sub x (s.getV x) (s.getV y))

/-- SHR Vx: Vx in place, `y` unused (R150). -/
def execShr (x y : RegIdx) (s : State) : Answer := .next (s.alu .shr x (s.getV x) (s.getV y))

/-- SUBN Vx, Vy (R151). -/
def execSubn (x y : RegIdx) (s : State) : Answer := .next (s.alu .subn x (s.getV x) (s.getV y))

/-- SHL Vx: Vx in place, `y` unused (R152). -/
def execShl (x y : RegIdx) (s : State) : Answer := .next (s.alu .shl x (s.getV x) (s.getV y))

/-- LD Vx, Vy (R153). -/
def execLdVxVy (x y : RegIdx) (s : State) : Answer := .next (s.alu .pass x (s.getV x) (s.getV y))

end Sys2Proof.Machine
end

