-- ==== Sys2Proof/Machine/Control.lean ====
section
/-! DEFINITION. The control-transfer family, SYS and UNKNOWN (40_cycle_and_control.md R103–R112). -/

namespace Sys2Proof.Machine

/-- RET: pop; `next_pc <- trunc16(ret + 2)`; StackUnderflow on an empty stack (R105). -/
def execRet (s : State) : Answer :=
  s.orFatal (encode .ret) <|
    match s.pop with
    | .error f => .error f
    | .ok (ret, t) => .ok (t.setPc (trunc16 (ret.toNat + 2)))

/-- JP nnn (R107). -/
def execJp (nnn : Addr12) (s : State) : Answer := .next (s.setPc (zext16 nnn))

/-- CALL nnn: push the CALL's own address; StackOverflow on a full stack (R106). -/
def execCall (nnn : Addr12) (s : State) : Answer :=
  s.orFatal (encode (.call nnn)) <|
    match s.push s.pc with
    | .error f => .error f
    | .ok t => .ok (t.setPc (zext16 nnn))

/-- SE Vx, kk (R108). -/
def execSeVxKk (x : RegIdx) (kk : Byte) (s : State) : Answer := .next (s.skipIf (s.getV x == kk))

/-- SNE Vx, kk (R109). -/
def execSneVxKk (x : RegIdx) (kk : Byte) (s : State) : Answer := .next (s.skipIf (s.getV x != kk))

/-- SE Vx, Vy (R110). -/
def execSeVxVy (x y : RegIdx) (s : State) : Answer := .next (s.skipIf (s.getV x == s.getV y))

/-- SNE Vx, Vy (R111). -/
def execSneVxVy (x y : RegIdx) (s : State) : Answer := .next (s.skipIf (s.getV x != s.getV y))

/-- JP V0, nnn (R112). -/
def execJpV0 (nnn : Addr12) (s : State) : Answer := .next (s.setPc (s.offsetTarget nnn))

/-- SYS nnn: decodes to UNKNOWN, so the fatal UnknownOpcode (R104). -/
def execSys (nnn : Addr12) (s : State) : Answer := .next (s.raiseFatal .unknownOpcode (encode (.sys nnn)))

/-- UNKNOWN: the fatal UnknownOpcode with the word itself (R103). -/
def execUnknown (op : Word) (s : State) : Answer := .next (s.raiseFatal .unknownOpcode (encode (.unknown op)))

end Sys2Proof.Machine
end

