-- ==== Sys2Proof/Machine/Display.lean ====
section
/-! DEFINITION. The two instructions that write the framebuffer (43_display.md R210, R211). -/

namespace Sys2Proof.Machine

/-- CLS (R210). -/
def execCls (s : State) : Answer := .next (s.setFb Framebuffer.clearAll).advance

/-- A blit's result put into the state: the cells, then VF (R211). -/
def State.drawn (s : State) (b : Blit) : State := ((s.setFb b.fb).setV vf (flagByte b.collision)).advance

/-- DRW Vx, Vy, n: all reads first, then the blit at the old Vx, Vy, then VF (R211). -/
def execDrw (x y : RegIdx) (n : Nibble) (s : State) : Answer :=
  s.orFatal (encode (.drw x y n)) <|
    match s.readBlock s.base n.toNat with
    | .error f => .error f
    | .ok sprite => .ok (s.drawn (blit s.fb (s.getV x).toNat (s.getV y).toNat sprite))

end Sys2Proof.Machine
end

