-- ==== Sys2Proof/Machine/Input.lean ====
section
/-! DEFINITION. The random, key input and timer instructions (44_input_timer_random.md R231–R237). -/

namespace Sys2Proof.Machine

/-- RND Vx, kk: the tick's random byte, masked (R231). -/
def execRnd (x : RegIdx) (kk : Byte) (s : State) : Answer := .next (s.setV x (s.rand &&& kk)).advance

/-- SKP Vx (R232). -/
def execSkp (x : RegIdx) (s : State) : Answer := .next (s.skipIf (s.keyMatches x))

/-- SKNP Vx: the exact negation of SKP's condition (R233). -/
def execSknp (x : RegIdx) (s : State) : Answer := .next (s.skipIf (!s.keyMatches x))

/-- LD Vx, DT (R234). -/
def execLdVxDt (x : RegIdx) (s : State) : Answer := .next (s.setV x s.dt).advance

/-- LD DT, Vx (R235). -/
def execLdDtVx (x : RegIdx) (s : State) : Answer := .next (s.setDt (s.getV x)).advance

/-- LD ST, Vx (R236). -/
def execLdStVx (x : RegIdx) (s : State) : Answer := .next (s.setSt (s.getV x)).advance

/-- LD Vx, K: with no key pressed PC stays and nothing changes; else the code is stored, zero-extended (R237). -/
def execLdVxK (x : RegIdx) (s : State) : Answer :=
  .next (if s.key.pressed then (s.setV x (s.key.code.setWidth 8)).advance else s)

end Sys2Proof.Machine
end

