-- ==== Sys2Proof/Machine/Ticks.lean ====
section
/-! DEFINITION. The three ticks (40_cycle_and_control.md R100, 60_exceptions.md R275, R278), which tick comes next, and the program loader (70_reset_and_hazards.md R301). -/

namespace Sys2Proof.Machine

/-- What follows the fetch of a CPU tick: the fetch's own fatal error, with opcode 0x0000, or the fetched word decoded and
executed (R100, R262). -/
def State.runFetched (s : State) : Except Fault Word → Answer
  | .error f => .next (s.raiseFatal f 0x0000#16)
  | .ok op => exec (decodeWord op) s

/-- `CpuTick(KEY, RAND)`: nothing when halted; else sample the inputs, fetch, decode, execute (R100). -/
def cpuTick (key : KeySample) (rand : Byte) (s : State) : Answer :=
  if s.halted then .next s else (s.sample key rand).runFetched (s.sample key rand).fetch

/-- One count down, floor at zero (R275). -/
def countDown (b : Byte) : Byte := trunc8 (b.toNat - 1)

/-- The beep of a timer tick: one pulse where ST was exactly 1 (R275, R276). -/
def State.beepIfDue (s : State) : State := if s.st = 1#8 then s.emit .beep else s

/-- `TimerTick()`: nothing when halted; else both timers count down, with the beep at ST = 1 (R275). -/
def timerTick (s : State) : State :=
  if s.halted then s else (s.beepIfDue.setDt (countDown s.dt)).setSt (countDown s.st)

/-- The display tick: nothing when halted; else the snapshot goes to `render`, and no state of the core changes (R278). -/
def displayTick (s : State) : State := if s.halted then s else s.emit (.render s.fb)

/-- One tick of any kind (R304). -/
def tick (t : Tick) (s : State) : Answer :=
  match t with
  | .cpu key rand => cpuTick key rand s
  | .timer => .next (timerTick s)
  | .display => .next (displayTick s)

/-- The tick that comes next: the oldest scheduled strobe; with none, a CPU tick on free inputs (R12, R305; log entries 3, 4). -/
def State.nextTick (s : State) : Tick :=
  match s.schedule with
  | t :: _ => t
  | [] => .cpu (Config.freeKey s.draws) (Config.freeRand s.draws)

/-- The state once that strobe is taken: it leaves the schedule, or the draw counter moves on. -/
def State.strobe (s : State) : State :=
  match s.schedule with
  | _ :: rest => { s with schedule := rest }
  | [] => { s with draws := s.draws + 1 }

/-- All of memory zero: the default font's bytes overwritten (R301, its first loop). -/
def Memory.cleared : Memory := Memory.fill [] Config.fontBase (List.replicate 80 0x00#8)

/-- Memory as `Load` leaves it: cleared, the font at FONT_BASE, the image at the load offset (R301). -/
def Memory.loaded (font : Vector Byte 80) (image : List Byte) : Memory :=
  (Memory.cleared.fill Config.fontBase font.toList).fill Config.loadOffset image

/-- `Load(image)` with the parameter FONT: every piece of the core's state at its reset value but memory, which holds the font
and the image; a longer image than memory has room for is refused (R301, R302, R300). The parameter STACK_DEPTH and the
environment (ports, strobes to come, outputs sent) are not the core's and stay. -/
def State.load (s : State) (font : Vector Byte 80) (image : List Byte) : Answer :=
  if image.length ≤ Config.maxImage then
    .next { State.reset with
      mem := Memory.loaded font image
      stackDepth := s.stackDepth
      key := s.key
      rand := s.rand
      schedule := s.schedule
      draws := s.draws
      outputs := s.outputs }
  else .refused (.imageTooLong image.length)

end Sys2Proof.Machine
end

