-- ==== Sys2Proof/Machine/Step.lean ====
section
/-! DEFINITION. One step of the machine: one tick (70_reset_and_hazards.md R304), and placing an instruction where the next step fetches it. -/

namespace Sys2Proof.Machine

/-- One step: the next tick. A halted core takes no strobe, so a halted state is its own next state (10_state.md R30). -/
def step (s : State) : Host.Outcome State Fault Refusal :=
  if s.halted then .next s else tick s.nextTick s.strobe

/-- Does a CPU tick come next? -/
def isCpuTick : Tick → Bool
  | .cpu _ _ => true
  | .timer => false
  | .display => false

/-- The strobes to come without those before the next CPU tick. -/
def dropToCpu : List Tick → List Tick
  | [] => []
  | t :: rest => if isCpuTick t then t :: rest else dropToCpu rest

/-- `s` with the one word of a table row stored at PC, high byte first, so that the next step fetches and runs it: the core not
halted, the strobes before the next CPU tick dropped, and PC at the load offset where it names no whole word of memory. -/
def State.withFetchWord (s : State) (nbits w : Nat) : State :=
  let pc := if s.pc.toNat + 1 < Config.memSize then s.pc else trunc16 Config.loadOffset
  { s with
    pc := pc
    mem := s.mem.fill pc.toNat (wordBytes (BitVec.ofNat 16 (w % 2 ^ nbits)))
    halted := false
    schedule := dropToCpu s.schedule }

end Sys2Proof.Machine
end

