-- ==== Sys2Proof/Safety.lean ====
section
/-! DEFINITION. What claims speak of: the invariant of every step, runs under a tick sequence and weak fairness, the end of a run, beeps sent, timer ticks passed, the PC each instruction goes to, the bytes a store leaves, the cells a sprite covers. -/

namespace Sys2Proof.Safety

open Sys2Proof.Machine

/-- The invariant of every step. -/
structure Inv (s : State) : Prop where
  /-- Memory keeps its canonical form. -/
  memWf : s.mem.wf
  /-- The stack holds at most STACK_DEPTH entries (10_state.md R26, R31). -/
  stackBound : ∀ depth, s.stackDepth = some depth → s.stack.length ≤ depth
  /-- Every return address is the address of a CALL that was fetched, so below 0xFFF (40_cycle_and_control.md R101, R106). -/
  stackAddresses : ∀ a ∈ s.stack, a.toNat ≤ 0xFFE
  /-- No PC lies beyond the largest target of JP V0 (R112). -/
  pcBound : s.pc.toNat ≤ 0x10FE
  /-- While the core runs, the diagnostic holds its reset values (10_state.md R30, R31). -/
  runningClear : s.halted = false →
    s.fatalCause = 0#3 ∧ s.fatalOpcode = 0#16 ∧ s.fatalPc = 0#16 ∧ s.fatalAddr = 0#16
  /-- Once halted, the cause is one of R261, FATAL_PC is the PC, and FATAL_ADDR is an address beyond memory for cause 4 and zero
  otherwise (60_exceptions.md R261, R262). -/
  haltedSet : s.halted = true →
    1 ≤ s.fatalCause.toNat ∧ s.fatalCause.toNat ≤ 4 ∧ s.fatalPc = s.pc ∧
      (if s.fatalCause = 4#3 then 0x1000 ≤ s.fatalAddr.toNat else s.fatalAddr = 0#16)

/-- The states of a run under a tick sequence: each tick is one whole transition (20_memory.md R58, 70_reset_and_hazards.md R304). -/
def Run (ticks : Nat → Tick) (states : Nat → State) : Prop :=
  ∀ n, tick (ticks n) (states n) = .next (states (n + 1))

/-- Weak fairness: each kind of tick happens infinitely often (R305, D18). -/
def Fair (ticks : Nat → Tick) : Prop :=
  ∀ n, (∃ m, n ≤ m ∧ isCpuTick (ticks m) = true) ∧ (∃ m, n ≤ m ∧ ticks m = .timer) ∧ (∃ m, n ≤ m ∧ ticks m = .display)

/-- The end of a program at the designated self-jump `a`: PC is there and the word there is `1nnn` with nnn = a (R306). -/
def AtSelfJump (a : Addr12) (s : State) : Prop :=
  s.pc = zext16 a ∧ s.fetch = .ok (encode (.jp a))

/-- How many beeps the core has sent (60_exceptions.md R276). -/
def beepCount (s : State) : Nat := s.outputs.count .beep

/-- How many of the first `k` ticks are timer ticks. -/
def timerTicks (ticks : Nat → Tick) (k : Nat) : Nat := (List.range k).countP fun n => decide (ticks n = .timer)

/-- PC + 4 where a skip's condition holds, PC + 2 otherwise (R102). -/
def skipPc (s : State) (condition : Prop) [Decidable condition] : Word :=
  if condition then s.pc + 4#16 else s.pc + 2#16

/-- The PC policy of 40_cycle_and_control.md R101, one case per instruction. RET counts only where the stack holds an entry: on an
empty stack it halts (R105). SYS and UNKNOWN always halt, and PC keeps their address (R103, R104). -/
def nextPc (i : Instr) (s : State) : Word :=
  match i with
  | .cls => s.pc + 2#16
  | .ret => s.stack.getLastD 0x0000#16 + 2#16
  | .jp nnn => nnn.setWidth 16
  | .call nnn => nnn.setWidth 16
  | .seVxKk x kk => skipPc s (s.getV x = kk)
  | .sneVxKk x kk => skipPc s (s.getV x ≠ kk)
  | .seVxVy x y _ => skipPc s (s.getV x = s.getV y)
  | .ldVxKk _ _ => s.pc + 2#16
  | .addVxKk _ _ => s.pc + 2#16
  | .or _ _ => s.pc + 2#16
  | .and _ _ => s.pc + 2#16
  | .xor _ _ => s.pc + 2#16
  | .addVxVy _ _ => s.pc + 2#16
  | .sub _ _ => s.pc + 2#16
  | .shr _ _ => s.pc + 2#16
  | .subn _ _ => s.pc + 2#16
  | .shl _ _ => s.pc + 2#16
  | .ldVxVy _ _ => s.pc + 2#16
  | .sneVxVy x y _ => skipPc s (s.getV x ≠ s.getV y)
  | .ldI _ => s.pc + 2#16
  | .jpV0 nnn => nnn.setWidth 16 + (s.getV 0).setWidth 16
  | .rnd _ _ => s.pc + 2#16
  | .drw _ _ _ => s.pc + 2#16
  | .skp x => skipPc s (s.key.pressed = true ∧ s.key.code.toNat = (s.getV x).toNat % 16)
  | .sknp x => skipPc s (s.key.pressed = false ∨ s.key.code.toNat ≠ (s.getV x).toNat % 16)
  | .ldVxDt _ => s.pc + 2#16
  | .ldDtVx _ => s.pc + 2#16
  | .ldStVx _ => s.pc + 2#16
  | .ldVxK _ => if s.key.pressed = true then s.pc + 2#16 else s.pc
  | .addIVx _ => s.pc + 2#16
  | .ldFVx _ => s.pc + 2#16
  | .ldBVx _ => s.pc + 2#16
  | .ldMemVx _ => s.pc + 2#16
  | .ldVxMem _ => s.pc + 2#16
  | .sys _ => s.pc
  | .unknown _ => s.pc

/-- The byte at `a` once V0..Vx are stored from I on (42_address_memory.md R175). -/
def dumpedByte (x : RegIdx) (s : State) (a : Nat) : Byte :=
  if s.base ≤ a ∧ a ≤ s.base + x.val then s.getV (Fin.ofNat 16 (a - s.base)) else s.mem.read a

/-- The byte at `a` once the decimal digits of Vx are stored at I, I + 1, I + 2 (R174). -/
def digitByte (x : RegIdx) (s : State) (a : Nat) : Byte :=
  if a = s.base then BitVec.ofNat 8 ((s.getV x).toNat / 100)
  else if a = s.base + 1 then BitVec.ofNat 8 ((s.getV x).toNat / 10 % 10)
  else if a = s.base + 2 then BitVec.ofNat 8 ((s.getV x).toNat % 10)
  else s.mem.read a

/-- Does sprite pixel (column `c`, row `r`) of a blit at (ox, oy) land on cell (x, y), and is it set? (43_display.md R200, R202) -/
def spriteBit (sprite : List Byte) (ox oy : Nat) (x : Fin 64) (y : Fin 32) (c r : Nat) : Prop :=
  c < 8 ∧ r < sprite.length ∧ (sprite.getD r 0#8).getLsbD (7 - c) = true ∧ (ox + c) % 64 = x.val ∧ (oy + r) % 32 = y.val

/-- Does a blit at (ox, oy) toggle cell (x, y)? -/
def covers (sprite : List Byte) (ox oy : Nat) (x : Fin 64) (y : Fin 32) : Prop :=
  ∃ c r, spriteBit sprite ox oy x y c r

/-- The bytes of memory at `a`, `a + 1`, …, as a sprite or a register block reads them. -/
def bytesAt (m : Memory) (a : Nat) (count : Nat) : List Byte := (List.range count).map fun k => m.read (a + k)

/-- The first address of a block from `a` on that lies beyond memory, where the block reaches it (60_exceptions.md R262). -/
def firstBeyond (a : Nat) : Nat := if a < 0x1000 then 0x1000 else a

/-- Does the instruction name VF, as `x` or `y` or within its register block? (10_state.md R21, R22) -/
def namesVf : Instr → Bool
  | .cls => false
  | .ret => false
  | .jp _ => false
  | .call _ => false
  | .seVxKk x _ => x == 15
  | .sneVxKk x _ => x == 15
  | .seVxVy x y _ => x == 15 || y == 15
  | .ldVxKk x _ => x == 15
  | .addVxKk x _ => x == 15
  | .or x y => x == 15 || y == 15
  | .and x y => x == 15 || y == 15
  | .xor x y => x == 15 || y == 15
  | .addVxVy x y => x == 15 || y == 15
  | .sub x y => x == 15 || y == 15
  | .shr x y => x == 15 || y == 15
  | .subn x y => x == 15 || y == 15
  | .shl x y => x == 15 || y == 15
  | .ldVxVy x y => x == 15 || y == 15
  | .sneVxVy x y _ => x == 15 || y == 15
  | .ldI _ => false
  | .jpV0 _ => false
  | .rnd x _ => x == 15
  | .drw x y _ => x == 15 || y == 15
  | .skp x => x == 15
  | .sknp x => x == 15
  | .ldVxDt x => x == 15
  | .ldDtVx x => x == 15
  | .ldStVx x => x == 15
  | .ldVxK x => x == 15
  | .addIVx x => x == 15
  | .ldFVx x => x == 15
  | .ldBVx x => x == 15
  | .ldMemVx x => x == 15
  | .ldVxMem x => x == 15
  | .sys _ => false
  | .unknown _ => false

end Sys2Proof.Safety
end

