-- ==== Sys2Proof/Certificates/Slice0/Obligations.lean ====
section
/-! DEFINITION. The statements for the provers, from the numbered rules of spec/. A next state is written as the old state with the changed fields named, so each result statement is also its instruction's frame and says that the instruction completes. -/

open Sys2Proof Sys2Proof.Machine Sys2Proof.Safety

/-! Encoding and decoding (30_encoding.md). -/

/-- The encoder and the decoder agree on every well-formed instruction, whatever bytes follow. The patterns of R85 rest on general
knowledge where the spec says so (93_implementation_defined.md G1). -/
def Obligations.DecodeEncodeRoundTrip : Prop :=
  ∀ (i : Instr) (rest : List Byte), i.wf = true → decode (encodeBytes i ++ rest) = .ok (i, rest)

/-- Every word is the encoding of the well-formed instruction it decodes to: no bit of a word is dropped. That the bits R85 only
calls ignored are kept as operands (the nibble of 5XYn and 9XYn, the `y` of SHR and SHL, the word of `unknown`) is the model's
choice (log entry 7). -/
def Obligations.EncodeDecodeRoundTrip : Prop :=
  ∀ op : Word, encode (decodeWord op) = op ∧ (decodeWord op).wf = true

/-- The hierarchical decoder (R73–R78) gives every word the tag of the first row of the opcode map that it selects (R85). -/
def Obligations.DecoderAgreesWithOpcodeMap : Prop :=
  ∀ op : Word, (dec op).tag = mapTag op

/-- R71 and R72 as arithmetic: the five fields are driven from the word alone, and `kk = y ++ n`, `nnn = x ++ kk` (bit positions
from general knowledge, 93_implementation_defined.md G2; all driven, decision D28). -/
def Obligations.DecoderDrivesEveryField : Prop :=
  ∀ op : Word,
    (fieldC op).toNat = op.toNat / 4096 ∧
    (dec op).x.val = op.toNat / 256 % 16 ∧
    (dec op).y.val = op.toNat / 16 % 16 ∧
    (dec op).n.toNat = op.toNat % 16 ∧
    (dec op).kk.toNat = (dec op).y.val * 16 + (dec op).n.toNat ∧
    (dec op).nnn.toNat = (dec op).x.val * 256 + (dec op).kk.toNat

/-- R79's counts, which the spec derives by enumeration: 13902 of the 65536 words are UNKNOWN. -/
def Obligations.UnknownWordCount : Prop :=
  (List.range 65536).countP (fun w => decide ((dec (BitVec.ofNat 16 w)).tag = .unknown)) = 13902

/-- Words written out in the spec (R71, 95_test_vectors.md §2.1), one or more per family, decode to the instructions they name. -/
def Obligations.SpecWordsDecode : Prop :=
  decodeWord 0x00E0#16 = .cls ∧
  decodeWord 0x00EE#16 = .ret ∧
  decodeWord 0x6005#16 = .ldVxKk 0 0x05#8 ∧
  decodeWord 0x8014#16 = .addVxVy 0 1 ∧
  decodeWord 0xA22A#16 = .ldI 0x22A#12 ∧
  decodeWord 0xD01F#16 = .drw 0 1 0xF#4 ∧
  decodeWord 0xE59E#16 = .skp 5 ∧
  decodeWord 0xF129#16 = .ldFVx 1 ∧
  decodeWord 0x01E0#16 = .sys 0x1E0#12 ∧
  decodeWord 0x8008#16 = .unknown 0x8008#16

/-! The step (40_cycle_and_control.md, 60_exceptions.md, 70_reset_and_hazards.md). -/

/-- A CPU tick of a running core whose two bytes at PC decode to `i` is `exec i`. Around it the step takes the strobe (the oldest
of the schedule, or a free draw) and samples the input ports (log entries 3 and 4). -/
def Obligations.StepRunsDecodedInstruction : Prop :=
  ∀ (s : State) (key : KeySample) (rand : Byte) (i : Instr),
    s.halted = false → s.nextTick = .cpu key rand → s.pc.toNat + 1 < 0x1000 →
    decode [s.mem.read s.pc.toNat, s.mem.read (s.pc.toNat + 1)] = .ok (i, []) →
    step s = exec i { s with
      key := key
      rand := rand
      schedule := s.schedule.tail
      draws := if s.schedule = [] then s.draws + 1 else s.draws }

/-- R304: a step of a running core is one whole tick of any of the three kinds, on the state its strobe leaves. Which tick: the
oldest strobe of the schedule, and with none a CPU tick on the free inputs of its draw; that part is the model's choice (log
entries 3 and 4). -/
def Obligations.StrobesComeInOrder : Prop :=
  ∀ (s : State),
    (s.halted = false → step s = tick s.nextTick s.strobe) ∧
    (∀ t rest, s.schedule = t :: rest → s.nextTick = t ∧ s.strobe = { s with schedule := rest }) ∧
    (s.schedule = [] → s.nextTick = .cpu (Config.freeKey s.draws) (Config.freeRand s.draws) ∧
      s.strobe = { s with draws := s.draws + 1 })

/-- A fetch that reaches beyond memory halts the core: cause 4, FATAL_OPCODE 0, FATAL_ADDR the first address ≥ 0x1000 of PC and
PC + 1 (decisions D3 and D24 of the spec). That the step also samples the ports and takes the strobe or a free draw, the clauses
on key, rand, schedule and draws, is the model's choice (log entries 3 and 4). -/
def Obligations.FetchBeyondMemoryHalts : Prop :=
  ∀ (s : State) (key : KeySample) (rand : Byte),
    s.halted = false → s.nextTick = .cpu key rand → 0x1000 ≤ s.pc.toNat + 1 →
    step s = .next { s with
      key := key
      rand := rand
      schedule := s.schedule.tail
      draws := if s.schedule = [] then s.draws + 1 else s.draws
      halted := true
      fatalCause := 4#3
      fatalOpcode := 0#16
      fatalPc := s.pc
      fatalAddr := if s.pc = 0xFFF#16 then 0x1000#16 else s.pc }

/-- Once HALTED = 1, no tick of any kind changes any state (decision D17 of the spec). That a step of a halted core takes no strobe
and no draw either, so that it answers the same state, is the model's choice (log entry 6). -/
def Obligations.HaltedCoreStaysAsItIs : Prop :=
  ∀ s : State, s.halted = true → step s = .next s ∧ ∀ t : Tick, tick t s = .next s

/-- The machine never stops outside its state: every instruction, every tick and every step answers a next state. Fatal errors
are halted next states (log entry 6). -/
def Obligations.EveryStepAnswersNext : Prop :=
  (∀ (i : Instr) (s : State), ∃ t, exec i s = .next t) ∧
  (∀ (k : Tick) (s : State), ∃ t, tick k s = .next t) ∧
  (∀ s : State, ∃ t, step s = .next t)

/-- Every step keeps the invariant: canonical memory, the stack within its depth and holding fetched addresses, PC at most 0x10FE,
and a diagnostic that is clear while running and one of R261's once halted. -/
def Obligations.StepKeepsInv : Prop :=
  ∀ s t : State, Inv s → step s = .next t → Inv t

/-- The state after reset meets the invariant. -/
def Obligations.ResetMeetsInv : Prop := Inv State.reset

/-- R34's table. PC, FB, M and HALTED are the source's; the zeros of V, I, DT, ST and FATAL_* are the spec's decision D13 and D24
(log entry 9); the font bytes are the parameter FONT at its default (log entry 2). -/
def Obligations.ResetValues : Prop :=
  (∀ x, State.reset.getV x = 0x00#8) ∧
  State.reset.i = 0x0000#16 ∧
  State.reset.pc = 0x0200#16 ∧
  State.reset.stack = [] ∧
  State.reset.dt = 0x00#8 ∧
  State.reset.st = 0x00#8 ∧
  (∀ x y, State.reset.fb.pixel x y = false) ∧
  (∀ a, a < 80 → State.reset.mem.read a = defaultFont.getD a 0#8) ∧
  (∀ a, 80 ≤ a → a < 0x1000 → State.reset.mem.read a = 0x00#8) ∧
  State.reset.halted = false ∧
  State.reset.fatalCause = 0#3 ∧
  State.reset.fatalOpcode = 0x0000#16 ∧
  State.reset.fatalPc = 0x0000#16 ∧
  State.reset.fatalAddr = 0x0000#16

/-- R301: `Load` leaves the font at 0x000, the image at 0x200 and zero elsewhere, memory in its canonical form, and every other
piece of the core's state at its reset value, for every FONT and every image of at most 3584 bytes. That it keeps what is not
the core's (stackDepth, key, rand, schedule, draws, outputs) is the model's choice (log entry 8); the zeros among the reset
values are the spec's decision D13. -/
def Obligations.LoadPlacesFontAndImage : Prop :=
  ∀ (s : State) (font : Vector Byte 80) (image : List Byte), image.length ≤ 3584 →
    ∃ t, s.load font image = .next t ∧ t.mem.wf ∧
      (∀ a, a < 0x1000 → t.mem.read a =
        if a < 80 then font.toList.getD a 0#8
        else if 0x200 ≤ a ∧ a < 0x200 + image.length then image.getD (a - 0x200) 0#8
        else 0x00#8) ∧
      t = { State.reset with
        mem := t.mem
        stackDepth := s.stackDepth
        key := s.key
        rand := s.rand
        schedule := s.schedule
        draws := s.draws
        outputs := s.outputs }

/-- R302, decision D19: a longer image is a refused launch. -/
def Obligations.LoadRefusesOversizedImage : Prop :=
  ∀ (s : State) (font : Vector Byte 80) (image : List Byte), 3584 < image.length →
    s.load font image = .refused (.imageTooLong image.length)

/-- `withFetchWord` stands for the load of one instruction: the very next step runs exactly the instruction the decoder reads from
the table's bits, in the state it made, with the strobe taken and the ports sampled (log entry 8). -/
def Obligations.PlacedWordRunsNext : Prop :=
  ∀ (s : State) (nbits w : Nat) (i : Instr), decodeTableWord nbits w = some i →
    ∃ key rand, step (s.withFetchWord nbits w) = exec i { s.withFetchWord nbits w with
      key := key
      rand := rand
      schedule := (s.withFetchWord nbits w).schedule.tail
      draws := if (s.withFetchWord nbits w).schedule = [] then s.draws + 1 else s.draws }

/-! Control transfer (40_cycle_and_control.md). -/

/-- R107: JP writes PC alone. -/
def Obligations.JpSetsPc : Prop :=
  ∀ (nnn : Addr12) (s : State), exec (.jp nnn) s = .next { s with pc := nnn.setWidth 16 }

/-- R112: JP V0 adds V0 to the address; the register is always V0 (the other reading is excluded by general knowledge, G6). -/
def Obligations.JpV0AddsRegisterZero : Prop :=
  ∀ (nnn : Addr12) (s : State),
    ∃ t, exec (.jpV0 nnn) s = .next t ∧ t = { s with pc := t.pc } ∧ t.pc.toNat = nnn.toNat + (s.getV 0).toNat

/-- R108 and R109: the skips on an immediate. -/
def Obligations.SkipsOnImmediate : Prop :=
  ∀ (x : RegIdx) (kk : Byte) (s : State),
    exec (.seVxKk x kk) s = .next { s with pc := if s.getV x = kk then s.pc + 4#16 else s.pc + 2#16 } ∧
    exec (.sneVxKk x kk) s = .next { s with pc := if s.getV x = kk then s.pc + 2#16 else s.pc + 4#16 }

/-- R110 and R111: the skips on two registers, for every value of the ignored nibble (that it is ignored the spec derives in
R78). -/
def Obligations.SkipsOnRegisters : Prop :=
  ∀ (x y : RegIdx) (n : Nibble) (s : State),
    exec (.seVxVy x y n) s = .next { s with pc := if s.getV x = s.getV y then s.pc + 4#16 else s.pc + 2#16 } ∧
    exec (.sneVxVy x y n) s = .next { s with pc := if s.getV x = s.getV y then s.pc + 2#16 else s.pc + 4#16 }

/-- R106: CALL pushes its own address and jumps, where the stack has room. -/
def Obligations.CallPushesOwnAddress : Prop :=
  ∀ (nnn : Addr12) (s : State), (∀ depth, s.stackDepth = some depth → s.stack.length < depth) →
    exec (.call nnn) s = .next { s with stack := s.stack ++ [s.pc], pc := nnn.setWidth 16 }

/-- R106, R261: CALL on a stack of STACK_DEPTH entries halts with cause 3 (decision D6 of the spec). -/
def Obligations.CallOnFullStackHalts : Prop :=
  ∀ (nnn : Addr12) (s : State) (depth : Nat), s.stackDepth = some depth → depth ≤ s.stack.length →
    exec (.call nnn) s = .next { s with
      halted := true
      fatalCause := 3#3
      fatalOpcode := 0x2#4 ++ nnn
      fatalPc := s.pc
      fatalAddr := 0#16 }

/-- R105: RET pops the last entry and goes to it plus 2. -/
def Obligations.RetResumesAfterCaller : Prop :=
  ∀ (s : State) (rest : List Word) (a : Word), s.stack = rest ++ [a] →
    exec .ret s = .next { s with stack := rest, pc := a + 2#16 }

/-- R105, R261: RET on an empty stack halts with cause 2; the latched fields are the spec's decision D24. -/
def Obligations.RetOnEmptyStackHalts : Prop :=
  ∀ s : State, s.stack = [] →
    exec .ret s = .next { s with
      halted := true
      fatalCause := 2#3
      fatalOpcode := 0x00EE#16
      fatalPc := s.pc
      fatalAddr := 0#16 }

/-- R105, R106: a CALL that completes, then a RET in any later state with the stack the CALL left, comes back to the CALL's
address plus 2 with the stack as it was before the CALL. -/
def Obligations.CallThenRetResumes : Prop :=
  ∀ (nnn : Addr12) (s t u : State), exec (.call nnn) s = .next t → t.halted = s.halted → s.halted = false →
    u.stack = t.stack → exec .ret u = .next { u with stack := s.stack, pc := s.pc + 2#16 }

/-- R103, R104: UNKNOWN words and SYS halt with cause 1, the word itself latched, and change nothing else (for SYS the spec's
decision D2; the latched fields are D24). -/
def Obligations.UnknownWordsHalt : Prop :=
  ∀ (op : Word) (nnn : Addr12) (s : State),
    exec (.unknown op) s = .next { s with
      halted := true
      fatalCause := 1#3
      fatalOpcode := op
      fatalPc := s.pc
      fatalAddr := 0#16 } ∧
    exec (.sys nnn) s = .next { s with
      halted := true
      fatalCause := 1#3
      fatalOpcode := 0#4 ++ nnn
      fatalPc := s.pc
      fatalAddr := 0#16 }

/-- R101, with R102, R105 to R112, R232, R233 and R237: PC after every instruction that leaves the core running is what its own
case of `nextPc` says, and nothing else (sums mod 2^16 are the spec's decision D5). -/
def Obligations.PcUpdatePolicy : Prop :=
  ∀ (i : Instr) (s t : State), s.halted = false → exec i s = .next t → t.halted = false → t.pc = nextPc i s

/-- R306, R107: at a self-jump a CPU tick leaves the core's whole state as it is: the definition of a program's end (the spec's
decision D18) does not say that the chip stops. That the tick's inputs are sampled into the ports key and rand is the model's
choice (log entry 3). -/
def Obligations.SelfJumpRepeats : Prop :=
  ∀ (s : State) (a : Addr12) (key : KeySample) (rand : Byte), s.halted = false → AtSelfJump a s →
    tick (.cpu key rand) s = .next { s with key := key, rand := rand }

/-! Immediate loads and the ALU (41_load_alu.md). -/

/-- R143 and R144: load immediate and add immediate write Vx alone, with no flag. -/
def Obligations.ImmediateLoadAndAdd : Prop :=
  ∀ (x : RegIdx) (kk : Byte) (s : State),
    (∃ t, exec (.ldVxKk x kk) s = .next t ∧ t = { s with v := t.v, pc := s.pc + 2#16 } ∧
      ∀ r, t.getV r = if r = x then kk else s.getV r) ∧
    (∃ t, exec (.addVxKk x kk) s = .next t ∧ t = { s with v := t.v, pc := s.pc + 2#16 } ∧
      ∀ r, t.getV r = if r = x then s.getV x + kk else s.getV r)

/-- R145, R146, R147, R153: OR, AND, XOR and the copy write Vx alone; VF is unchanged unless x = F (decision D10 of the spec). -/
def Obligations.LogicAndCopyKeepFlag : Prop :=
  ∀ (x y : RegIdx) (s : State),
    (∃ t, exec (.or x y) s = .next t ∧ t = { s with v := t.v, pc := s.pc + 2#16 } ∧
      ∀ r, t.getV r = if r = x then s.getV x ||| s.getV y else s.getV r) ∧
    (∃ t, exec (.and x y) s = .next t ∧ t = { s with v := t.v, pc := s.pc + 2#16 } ∧
      ∀ r, t.getV r = if r = x then s.getV x &&& s.getV y else s.getV r) ∧
    (∃ t, exec (.xor x y) s = .next t ∧ t = { s with v := t.v, pc := s.pc + 2#16 } ∧
      ∀ r, t.getV r = if r = x then s.getV x ^^^ s.getV y else s.getV r) ∧
    (∃ t, exec (.ldVxVy x y) s = .next t ∧ t = { s with v := t.v, pc := s.pc + 2#16 } ∧
      ∀ r, t.getV r = if r = x then s.getV y else s.getV r)

/-- R148: ADD Vx, Vy truncates to 8 bits and sets VF to the carry; with x = F the flag wins (decision D7 of the spec). -/
def Obligations.AddRegistersSetsCarry : Prop :=
  ∀ (x y : RegIdx) (s : State),
    ∃ t, exec (.addVxVy x y) s = .next t ∧ t = { s with v := t.v, pc := s.pc + 2#16 } ∧
      ∀ r, t.getV r =
        if r = 15 then (if 255 < (s.getV x).toNat + (s.getV y).toNat then 1#8 else 0#8)
        else if r = x then s.getV x + s.getV y
        else s.getV r

/-- R149 and R151: SUB and SUBN wrap mod 256 and set VF by the strict comparison, 0 for equal operands (90_conflicts.md C1; for
SUBN the spec derives it); with x = F the flag wins (decision D7). -/
def Obligations.SubtractionsSetStrictNoBorrow : Prop :=
  ∀ (x y : RegIdx) (s : State),
    (∃ t, exec (.sub x y) s = .next t ∧ t = { s with v := t.v, pc := s.pc + 2#16 } ∧
      ∀ r, t.getV r =
        if r = 15 then (if s.getV y < s.getV x then 1#8 else 0#8)
        else if r = x then s.getV x - s.getV y
        else s.getV r) ∧
    (∃ t, exec (.subn x y) s = .next t ∧ t = { s with v := t.v, pc := s.pc + 2#16 } ∧
      ∀ r, t.getV r =
        if r = 15 then (if s.getV x < s.getV y then 1#8 else 0#8)
        else if r = x then s.getV y - s.getV x
        else s.getV r)

/-- R150 and R152: SHR and SHL shift Vx in place by one and put the displaced bit in VF, whatever `y` is (decision D9 of the
spec); with x = F the flag wins (decision D7). -/
def Obligations.ShiftsKeepDisplacedBit : Prop :=
  ∀ (x y : RegIdx) (s : State),
    (∃ t, exec (.shr x y) s = .next t ∧ t = { s with v := t.v, pc := s.pc + 2#16 } ∧
      ∀ r, t.getV r =
        if r = 15 then (if (s.getV x).toNat % 2 = 1 then 1#8 else 0#8)
        else if r = x then s.getV x >>> 1
        else s.getV r) ∧
    (∃ t, exec (.shl x y) s = .next t ∧ t = { s with v := t.v, pc := s.pc + 2#16 } ∧
      ∀ r, t.getV r =
        if r = 15 then (if 128 ≤ (s.getV x).toNat then 1#8 else 0#8)
        else if r = x then s.getV x <<< 1
        else s.getV r)

/-- R21, its first half: an instruction after which VF differs is one of the six implicit writers, or names VF as its
destination. -/
def Obligations.OnlyTheseWriteVf : Prop :=
  ∀ (i : Instr) (s t : State), exec i s = .next t → t.getV 15 ≠ s.getV 15 →
    (∃ x y, i = .addVxVy x y ∨ i = .sub x y ∨ i = .shr x y ∨ i = .subn x y ∨ i = .shl x y) ∨
    (∃ x y n, i = .drw x y n) ∨
    (∃ kk, i = .ldVxKk 15 kk ∨ i = .addVxKk 15 kk ∨ i = .rnd 15 kk) ∨
    (∃ y, i = .or 15 y ∨ i = .and 15 y ∨ i = .xor 15 y ∨ i = .ldVxVy 15 y) ∨
    i = .ldVxDt 15 ∨ i = .ldVxK 15 ∨ i = .ldVxMem 15

/-- R21, its second half: an instruction that does not name VF never reads it. Another VF before gives the same next state, but
for VF itself. -/
def Obligations.VfNeverReadImplicitly : Prop :=
  ∀ (i : Instr) (s t : State) (b : Byte), namesVf i = false → exec i s = .next t →
    ∃ u, exec i (s.setV 15 b) = .next u ∧ u = { t with v := u.v } ∧ ∀ r, r ≠ 15 → u.getV r = t.getV r

/-! The address register and memory (42_address_memory.md, 20_memory.md). -/

/-- R171 and R172: LD I and ADD I write I alone; ADD I truncates to 16 bits and touches no flag. -/
def Obligations.AddressRegisterSetAndAdd : Prop :=
  ∀ (nnn : Addr12) (x : RegIdx) (s : State),
    exec (.ldI nnn) s = .next { s with i := nnn.setWidth 16, pc := s.pc + 2#16 } ∧
    exec (.addIVx x) s = .next { s with i := s.i + (s.getV x).setWidth 16, pc := s.pc + 2#16 }

/-- R173: LD F gives five times the full register value, with no truncation. -/
def Obligations.FontAddressIsFiveTimes : Prop :=
  ∀ (x : RegIdx) (s : State),
    ∃ t, exec (.ldFVx x) s = .next t ∧ t = { s with i := t.i, pc := s.pc + 2#16 } ∧
      t.i.toNat = (s.getV x).toNat * 5

/-- R174: LD B stores three decimal digits at I, I + 1, I + 2 that make up Vx, and changes no other byte. -/
def Obligations.BcdStoresDigits : Prop :=
  ∀ (x : RegIdx) (s : State), s.i.toNat + 2 < 0x1000 →
    ∃ t, exec (.ldBVx x) s = .next t ∧ t = { s with mem := t.mem, pc := s.pc + 2#16 } ∧
      (t.mem.read s.base).toNat ≤ 2 ∧
      (t.mem.read (s.base + 1)).toNat ≤ 9 ∧
      (t.mem.read (s.base + 2)).toNat ≤ 9 ∧
      (t.mem.read s.base).toNat * 100 + (t.mem.read (s.base + 1)).toNat * 10 + (t.mem.read (s.base + 2)).toNat
        = (s.getV x).toNat ∧
      ∀ a, a < s.base ∨ s.base + 2 < a → t.mem.read a = s.mem.read a

/-- R175: LD [I] stores V0..Vx at I, I + 1, …, changes no other byte, and leaves I (decision D11 of the spec). -/
def Obligations.DumpStoresRegisters : Prop :=
  ∀ (x : RegIdx) (s : State), s.i.toNat + x.val < 0x1000 →
    ∃ t, exec (.ldMemVx x) s = .next t ∧ t = { s with mem := t.mem, pc := s.pc + 2#16 } ∧
      (∀ r : RegIdx, r.val ≤ x.val → t.mem.read (s.base + r.val) = s.getV r) ∧
      ∀ a, a < s.base ∨ s.base + x.val < a → t.mem.read a = s.mem.read a

/-- R176: LD Vx, [I] loads V0..Vx from I, I + 1, …, keeps the other registers, and leaves I (decision D11 of the spec). -/
def Obligations.LoadFillsRegisters : Prop :=
  ∀ (x : RegIdx) (s : State), s.i.toNat + x.val < 0x1000 →
    ∃ t, exec (.ldVxMem x) s = .next t ∧ t = { s with v := t.v, pc := s.pc + 2#16 } ∧
      ∀ r : RegIdx, t.getV r = if r.val ≤ x.val then s.mem.read (s.base + r.val) else s.getV r

/-- R175 then R176: loading what was dumped gives back the dumped registers, in any later state with the same memory and I. -/
def Obligations.DumpThenLoadRestores : Prop :=
  ∀ (x : RegIdx) (s t u : State), s.i.toNat + x.val < 0x1000 → exec (.ldMemVx x) s = .next t →
    u.mem = t.mem → u.i = t.i →
    ∃ w, exec (.ldVxMem x) u = .next w ∧ ∀ r : RegIdx, r.val ≤ x.val → w.getV r = s.getV r

/-- R52, R55, R262: LD B, LD [I], LD Vx, [I] and DRW with a block that reaches beyond memory halt with cause 4, the first address
≥ 0x1000 latched, and nothing else changed (decisions D3 and D24 of the spec). -/
def Obligations.BlocksBeyondMemoryHalt : Prop :=
  ∀ (i : Instr) (s : State),
    ((∃ x, i = .ldBVx x ∧ 0x1000 ≤ s.i.toNat + 2) ∨
      (∃ x : RegIdx, (i = .ldMemVx x ∨ i = .ldVxMem x) ∧ 0x1000 ≤ s.i.toNat + x.val) ∨
      (∃ (x y : RegIdx) (n : Nibble), i = .drw x y n ∧ n ≠ 0#4 ∧ 0x1000 < s.i.toNat + n.toNat)) →
    exec i s = .next { s with
      halted := true
      fatalCause := 4#3
      fatalOpcode := encode i
      fatalPc := s.pc
      fatalAddr := if s.i.toNat < 0x1000 then 0x1000#16 else s.i }

/-- R55 with 90_conflicts.md C7: a byte of memory that an instruction changes lies in the block an LD B or LD [I] stores. -/
def Obligations.OnlyStoresWriteMemory : Prop :=
  ∀ (i : Instr) (s t : State) (a : Nat), exec i s = .next t → t.mem.read a ≠ s.mem.read a →
    (∃ x, i = .ldBVx x ∧ s.base ≤ a ∧ a ≤ s.base + 2) ∨
    (∃ x : RegIdx, i = .ldMemVx x ∧ s.base ≤ a ∧ a ≤ s.base + x.val)

/-- R60, R53: after a dump or a BCD store that completes, a fetch in any later state with that memory reads each of its two bytes
as stored where the store wrote it, and as before the store elsewhere, whether one, both or none of them was stored. -/
def Obligations.StoreSeenByNextFetch : Prop :=
  ∀ (x : RegIdx) (s t u : State), u.mem = t.mem → u.pc.toNat + 1 < 0x1000 →
    (s.i.toNat + x.val < 0x1000 → exec (.ldMemVx x) s = .next t →
      u.fetch = .ok (dumpedByte x s u.pc.toNat ++ dumpedByte x s (u.pc.toNat + 1))) ∧
    (s.i.toNat + 2 < 0x1000 → exec (.ldBVx x) s = .next t →
      u.fetch = .ok (digitByte x s u.pc.toNat ++ digitByte x s (u.pc.toNat + 1)))

/-- R24, R26, R27, R28 and R33 over all instructions: which instructions change I, the stack, DT, ST and FB; none changes the
parameter STACK_DEPTH or the model's own ports, schedule, draws and outputs. -/
def Obligations.OnlyTheseWriteSpecialState : Prop :=
  ∀ (i : Instr) (s t : State), exec i s = .next t →
    (t.i ≠ s.i → (∃ nnn, i = .ldI nnn) ∨ (∃ x, i = .addIVx x) ∨ (∃ x, i = .ldFVx x)) ∧
    (t.stack ≠ s.stack → i = .ret ∨ ∃ nnn, i = .call nnn) ∧
    (t.dt ≠ s.dt → ∃ x, i = .ldDtVx x) ∧
    (t.st ≠ s.st → ∃ x, i = .ldStVx x) ∧
    (t.fb ≠ s.fb → i = .cls ∨ ∃ x y n, i = .drw x y n) ∧
    t.stackDepth = s.stackDepth ∧ t.key = s.key ∧ t.rand = s.rand ∧ t.schedule = s.schedule ∧ t.draws = s.draws ∧
    t.outputs = s.outputs

/-! The display (43_display.md). -/

/-- R210: CLS clears every cell, whatever was there, and leaves VF. -/
def Obligations.ClsClearsEveryCell : Prop :=
  ∀ s : State, ∃ t, exec .cls s = .next t ∧ t = { s with fb := t.fb, pc := s.pc + 2#16 } ∧
    ∀ x y, t.fb.pixel x y = false

/-- R211, R202, R203: DRW toggles exactly the cells the sprite covers with a set bit, wrapped per pixel, and sets VF to 1 exactly
when one of them was set; every other register is kept. For n = 0 nothing is covered and VF is 0 (decision D12 of the spec). -/
def Obligations.DrwTogglesCoveredCells : Prop :=
  ∀ (x y : RegIdx) (n : Nibble) (s : State), n = 0#4 ∨ s.i.toNat + n.toNat ≤ 0x1000 →
    ∃ t, exec (.drw x y n) s = .next t ∧ t = { s with v := t.v, fb := t.fb, pc := s.pc + 2#16 } ∧
      (∀ r, r ≠ 15 → t.getV r = s.getV r) ∧
      (∀ px py,
        (covers (bytesAt s.mem s.base n.toNat) (s.getV x).toNat (s.getV y).toNat px py →
          t.fb.pixel px py = !s.fb.pixel px py) ∧
        (¬ covers (bytesAt s.mem s.base n.toNat) (s.getV x).toNat (s.getV y).toNat px py →
          t.fb.pixel px py = s.fb.pixel px py)) ∧
      (t.getV 15 = 1#8 ∨ t.getV 15 = 0#8) ∧
      (t.getV 15 = 1#8 ↔ ∃ px py,
        covers (bytesAt s.mem s.base n.toNat) (s.getV x).toNat (s.getV y).toNat px py ∧ s.fb.pixel px py = true)

/-- R211: drawing the same sprite twice at the same place restores the framebuffer. The second draw reports a collision exactly when
it erases a cell, so when a covered cell was clear before the first; where the first draw met no set cell, that is when the
sprite has a 1 bit (the spec's derived sentence, whose premise it leaves out: log entry 20). -/
def Obligations.DrawTwiceRestores : Prop :=
  ∀ (x y : RegIdx) (n : Nibble) (s t : State), n = 0#4 ∨ s.i.toNat + n.toNat ≤ 0x1000 → exec (.drw x y n) s = .next t →
    t.getV x = s.getV x → t.getV y = s.getV y →
    ∃ u, exec (.drw x y n) t = .next u ∧ u.fb = s.fb ∧
      (u.getV 15 = 1#8 ↔ ∃ px py,
        covers (bytesAt s.mem s.base n.toNat) (s.getV x).toNat (s.getV y).toNat px py ∧ s.fb.pixel px py = false) ∧
      (t.getV 15 = 0#8 → (u.getV 15 = 1#8 ↔ ∃ b ∈ bytesAt s.mem s.base n.toNat, b ≠ 0#8))

/-! Inputs and timers (44_input_timer_random.md, 60_exceptions.md). -/

/-- R231: RND masks the tick's draw, for every value of the draw (a free value, log entry 3). -/
def Obligations.RndMasksTheDraw : Prop :=
  ∀ (x : RegIdx) (kk : Byte) (s : State),
    ∃ t, exec (.rnd x kk) s = .next t ∧ t = { s with v := t.v, pc := s.pc + 2#16 } ∧
      ∀ r, t.getV r = if r = x then s.rand &&& kk else s.getV r

/-- R232 and R233: the key skips, by the low nibble of Vx. -/
def Obligations.KeySkips : Prop :=
  ∀ (x : RegIdx) (s : State),
    exec (.skp x) s = .next { s with
      pc := if s.key.pressed = true ∧ s.key.code.toNat = (s.getV x).toNat % 16 then s.pc + 4#16 else s.pc + 2#16 } ∧
    exec (.sknp x) s = .next { s with
      pc := if s.key.pressed = false ∨ s.key.code.toNat ≠ (s.getV x).toNat % 16 then s.pc + 4#16 else s.pc + 2#16 }

/-- R234, R235, R236: the moves to and from the timers. -/
def Obligations.TimerMoves : Prop :=
  ∀ (x : RegIdx) (s : State),
    (∃ t, exec (.ldVxDt x) s = .next t ∧ t = { s with v := t.v, pc := s.pc + 2#16 } ∧
      ∀ r, t.getV r = if r = x then s.dt else s.getV r) ∧
    exec (.ldDtVx x) s = .next { s with dt := s.getV x, pc := s.pc + 2#16 } ∧
    exec (.ldStVx x) s = .next { s with st := s.getV x, pc := s.pc + 2#16 }

/-- R237: LD Vx, K changes nothing while no key is pressed, and stores the code, zero-extended (decision D22 of the spec), on the
first tick where one is. -/
def Obligations.WaitForKey : Prop :=
  ∀ (x : RegIdx) (s : State),
    (s.key.pressed = false → exec (.ldVxK x) s = .next s) ∧
    (s.key.pressed = true →
      ∃ t, exec (.ldVxK x) s = .next t ∧ t = { s with v := t.v, pc := s.pc + 2#16 } ∧
        (∀ r, r ≠ x → t.getV r = s.getV r) ∧ (t.getV x).toNat = s.key.code.toNat)

/-- R275: a timer tick of a running core counts both timers down to a floor of zero, beeps when ST was exactly 1, and changes
nothing else; a halted core's timer tick changes nothing. The record of beeps is the model's own field (log entry 5). -/
def Obligations.TimerTickCountsDown : Prop :=
  ∀ s : State,
    (s.halted = true → tick .timer s = .next s) ∧
    (s.halted = false →
      ∃ t, tick .timer s = .next t ∧
        t = { s with dt := t.dt, st := t.st, outputs := if s.st = 1#8 then Output.beep :: s.outputs else s.outputs } ∧
        t.dt.toNat = s.dt.toNat - 1 ∧ t.st.toNat = s.st.toNat - 1)

/-- R278: a display tick of a running core hands the framebuffer to the adapter and changes no state of the core; the record of
what was sent is the model's own (log entry 5). -/
def Obligations.DisplayTickHandsOverFrame : Prop :=
  ∀ s : State, s.halted = false →
    tick .display s = .next { s with outputs := Output.render s.fb :: s.outputs }

/-- R27: a step after which a timer stands higher is a CPU tick of a running core that ran the instruction that sets it. -/
def Obligations.TimersRiseOnlyWhenSet : Prop :=
  ∀ s t : State, step s = .next t →
    (s.dt < t.dt → s.halted = false ∧ isCpuTick s.nextTick = true ∧ ∃ x, s.fetch = .ok (encode (.ldDtVx x))) ∧
    (s.st < t.st → s.halted = false ∧ isCpuTick s.nextTick = true ∧ ∃ x, s.fetch = .ok (encode (.ldStVx x)))

/-- R276, which the spec derives from R275: a count of N in ST gives exactly one beep, at the N-th timer tick, in any run of a
running core whose other ticks, CPU and display, leave ST as it is. Beeps are counted on the model's own record of outputs (log
entry 5). -/
def Obligations.OneBeepPerSoundCount : Prop :=
  ∀ (ticks : Nat → Tick) (states : Nat → State) (k : Nat), Run ticks states →
    (∀ n, n < k → (states n).halted = false) →
    (∀ n, n < k → ticks n ≠ .timer → (states (n + 1)).st = (states n).st) →
    1 ≤ (states 0).st.toNat →
    (states k).st.toNat = (states 0).st.toNat - timerTicks ticks k ∧
      beepCount (states k) = beepCount (states 0) + (if (states 0).st.toNat ≤ timerTicks ticks k then 1 else 0)

/-- R305, R275: in a weakly fair run of a core that keeps running, where no step raises DT, the delay timer runs out. -/
def Obligations.FairRunsExpireDelayTimer : Prop :=
  ∀ (ticks : Nat → Tick) (states : Nat → State), Run ticks states → Fair ticks →
    (∀ n, (states n).halted = false) → (∀ n, (states (n + 1)).dt ≤ (states n).dt) →
    ∃ n, ∀ m, n ≤ m → (states m).dt = 0#8

/-! Fatal errors (60_exceptions.md). -/

/-- R11, R260, R262: an instruction that halts the core keeps no other effect; the diagnostic holds a cause of R261, the word and
the instruction's address (decision D24 of the spec). -/
def Obligations.FatalErrorIsPrecise : Prop :=
  ∀ (i : Instr) (s t : State), s.halted = false → exec i s = .next t → t.halted = true →
    t = { s with
      halted := true
      fatalCause := t.fatalCause
      fatalOpcode := encode i
      fatalPc := s.pc
      fatalAddr := t.fatalAddr } ∧
    1 ≤ t.fatalCause.toNat ∧ t.fatalCause.toNat ≤ 4

/-- R261, R263: each cause has exactly its instructions and its condition, and nothing else halts the core (the conditions of
causes 3 and 4 are the spec's decisions D6 and D3). -/
def Obligations.FatalCausesAreExactly : Prop :=
  ∀ (i : Instr) (s t : State), s.halted = false → s.fatalCause = 0#3 → exec i s = .next t →
    (t.fatalCause = 1#3 ↔ (∃ op, i = .unknown op) ∨ (∃ nnn, i = .sys nnn)) ∧
    (t.fatalCause = 2#3 ↔ i = .ret ∧ s.stack = []) ∧
    (t.fatalCause = 3#3 ↔ ∃ nnn depth, i = .call nnn ∧ s.stackDepth = some depth ∧ depth ≤ s.stack.length) ∧
    (t.fatalCause = 4#3 ↔
      (∃ x, i = .ldBVx x ∧ 0x1000 ≤ s.i.toNat + 2) ∨
      (∃ x : RegIdx, (i = .ldMemVx x ∨ i = .ldVxMem x) ∧ 0x1000 ≤ s.i.toNat + x.val) ∨
      (∃ (x y : RegIdx) (n : Nibble), i = .drw x y n ∧ n ≠ 0#4 ∧ 0x1000 < s.i.toNat + n.toNat)) ∧
    (t.halted = true ↔ t.fatalCause ≠ 0#3)
end

