-- ==== Sys2Proof/Laws/Decode.lean ====
section
/-! SUPPORT. The fields of a word put together from fields, that a word is the concatenation of its fields, and that it is its two bytes. -/

namespace Sys2Proof

@[simp] theorem fieldC_wordCXYN (c : Nibble) (x y : RegIdx) (n : Nibble) : fieldC (wordCXYN c x y n) = c := by
  unfold fieldC wordCXYN
  apply BitVec.eq_of_getLsbD_eq
  intro i hi
  simp only [BitVec.getLsbD_extractLsb', BitVec.getLsbD_append]
  interval_cases i <;> simp

@[simp] theorem fieldX_wordCXYN (c : Nibble) (x y : RegIdx) (n : Nibble) : fieldX (wordCXYN c x y n) = x := by
  have h : BitVec.extractLsb' 8 4 (c ++ BitVec.ofFin (w := 4) x ++ BitVec.ofFin (w := 4) y ++ n) = BitVec.ofFin (w := 4) x := by
    apply BitVec.eq_of_getLsbD_eq
    intro i hi
    simp only [BitVec.getLsbD_extractLsb', BitVec.getLsbD_append]
    interval_cases i <;> simp
  unfold fieldX wordCXYN
  rw [h]

@[simp] theorem fieldY_wordCXYN (c : Nibble) (x y : RegIdx) (n : Nibble) : fieldY (wordCXYN c x y n) = y := by
  have h : BitVec.extractLsb' 4 4 (c ++ BitVec.ofFin (w := 4) x ++ BitVec.ofFin (w := 4) y ++ n) = BitVec.ofFin (w := 4) y := by
    apply BitVec.eq_of_getLsbD_eq
    intro i hi
    simp only [BitVec.getLsbD_extractLsb', BitVec.getLsbD_append]
    interval_cases i <;> simp
  unfold fieldY wordCXYN
  rw [h]

@[simp] theorem fieldN_wordCXYN (c : Nibble) (x y : RegIdx) (n : Nibble) : fieldN (wordCXYN c x y n) = n := by
  unfold fieldN wordCXYN
  apply BitVec.eq_of_getLsbD_eq
  intro i hi
  simp only [BitVec.getLsbD_extractLsb', BitVec.getLsbD_append]
  interval_cases i <;> simp

@[simp] theorem fieldC_wordCXKk (c : Nibble) (x : RegIdx) (kk : Byte) : fieldC (wordCXKk c x kk) = c := by
  unfold fieldC wordCXKk
  apply BitVec.eq_of_getLsbD_eq
  intro i hi
  simp only [BitVec.getLsbD_extractLsb', BitVec.getLsbD_append]
  interval_cases i <;> simp

@[simp] theorem fieldX_wordCXKk (c : Nibble) (x : RegIdx) (kk : Byte) : fieldX (wordCXKk c x kk) = x := by
  have h : BitVec.extractLsb' 8 4 (c ++ BitVec.ofFin (w := 4) x ++ kk) = BitVec.ofFin (w := 4) x := by
    apply BitVec.eq_of_getLsbD_eq
    intro i hi
    simp only [BitVec.getLsbD_extractLsb', BitVec.getLsbD_append]
    interval_cases i <;> simp
  unfold fieldX wordCXKk
  rw [h]

@[simp] theorem fieldKk_wordCXKk (c : Nibble) (x : RegIdx) (kk : Byte) : fieldKk (wordCXKk c x kk) = kk := by
  unfold fieldKk wordCXKk
  apply BitVec.eq_of_getLsbD_eq
  intro i hi
  simp only [BitVec.getLsbD_extractLsb', BitVec.getLsbD_append]
  interval_cases i <;> simp

@[simp] theorem fieldC_wordCNnn (c : Nibble) (nnn : Addr12) : fieldC (wordCNnn c nnn) = c := by
  unfold fieldC wordCNnn
  apply BitVec.eq_of_getLsbD_eq
  intro i hi
  simp only [BitVec.getLsbD_extractLsb', BitVec.getLsbD_append]
  interval_cases i <;> simp

@[simp] theorem fieldNnn_wordCNnn (c : Nibble) (nnn : Addr12) : fieldNnn (wordCNnn c nnn) = nnn := by
  unfold fieldNnn wordCNnn
  apply BitVec.eq_of_getLsbD_eq
  intro i hi
  simp only [BitVec.getLsbD_extractLsb', BitVec.getLsbD_append]
  interval_cases i <;> simp

theorem wordCXYN_fields (op : Word) : wordCXYN (fieldC op) (fieldX op) (fieldY op) (fieldN op) = op := by
  unfold wordCXYN fieldC fieldX fieldY fieldN
  apply BitVec.eq_of_getLsbD_eq
  intro i hi
  simp only [BitVec.ofFin_toFin, BitVec.getLsbD_append, BitVec.getLsbD_extractLsb']
  interval_cases i <;> simp

theorem wordCXKk_fields (op : Word) : wordCXKk (fieldC op) (fieldX op) (fieldKk op) = op := by
  unfold wordCXKk fieldC fieldX fieldKk
  apply BitVec.eq_of_getLsbD_eq
  intro i hi
  simp only [BitVec.ofFin_toFin, BitVec.getLsbD_append, BitVec.getLsbD_extractLsb']
  interval_cases i <;> simp

theorem wordCNnn_fields (op : Word) : wordCNnn (fieldC op) (fieldNnn op) = op := by
  unfold wordCNnn fieldC fieldNnn
  apply BitVec.eq_of_getLsbD_eq
  intro i hi
  simp only [BitVec.getLsbD_append, BitVec.getLsbD_extractLsb']
  interval_cases i <;> simp

/-- A word is its two bytes, high byte first. -/
theorem wordBytes_append (op : Word) : (op.extractLsb' 8 8 ++ op.extractLsb' 0 8 : BitVec 16) = op := by
  apply BitVec.eq_of_getLsbD_eq
  intro i hi
  simp only [BitVec.getLsbD_append, BitVec.getLsbD_extractLsb']
  interval_cases i <;> simp

/-- Decoding the bytes of a word decodes the word. -/
theorem decode_wordBytes (op : Word) (rest : List Byte) :
    decode (wordBytes op ++ rest) = .ok (decodeWord op, rest) := by
  simp only [wordBytes, List.cons_append, List.nil_append, decode]
  rw [wordBytes_append]

end Sys2Proof
end

