-- ==== Sys2Proof/Laws/Memory.lean ====
section
/-! SUPPORT. The laws of memory: reading after writing one byte or a run, and that every memory operation keeps the canonical form. -/

namespace Sys2Proof.Machine

theorem Memory.read_insert_same (m : Memory) (a : Nat) (b : Byte) (h : ∀ c ∈ m, c.1 ≠ a) :
    (Memory.insert a b m).read a = b := by
  induction m with
  | nil => simp [Memory.insert, Memory.read]
  | cons c m ih =>
    have hc : c.1 ≠ a := h c (by simp)
    have := ih fun d hd => h d (by simp [hd])
    by_cases hlt : c.1 < a
    · simpa [Memory.insert, Memory.read, hlt, hc] using this
    · simp [Memory.insert, Memory.read, hlt]

theorem Memory.read_insert_other (m : Memory) (a k : Nat) (b : Byte) (h : k ≠ a) :
    (Memory.insert a b m).read k = m.read k := by
  induction m with
  | nil => simp [Memory.insert, Memory.read, Ne.symm h]
  | cons c m ih =>
    by_cases hlt : c.1 < a
    · by_cases hk : c.1 = k
      · simp only [Memory.insert, hlt, if_true]
        simp [Memory.read, hk]
      · simpa [Memory.insert, Memory.read, hlt, hk] using ih
    · simp [Memory.insert, Memory.read, hlt, Ne.symm h]

theorem Memory.read_filter_other (m : Memory) (a k : Nat) (h : k ≠ a) :
    Memory.read (m.filter fun c => c.1 != a) k = m.read k := by
  induction m with
  | nil => rfl
  | cons c m ih =>
    by_cases hk : c.1 = k
    · simp [Memory.read, hk, h]
    · by_cases ha : c.1 = a
      · simpa [Memory.read, hk, ha, Ne.symm h] using ih
      · simpa [Memory.read, hk, ha] using ih

/-- A read after a write to the same address gives the value written. -/
@[simp] theorem Memory.read_write_same (m : Memory) (a : Nat) (b : Byte) : (m.write a b).read a = b := by
  unfold Memory.write
  by_cases hb : b = Memory.unlisted a
  · have : (m.filter fun c => c.1 != a).find? (fun c => c.1 == a) = none := by
      simp [List.find?_eq_none]
    simp [hb, Memory.read, this]
  · simpa [hb] using Memory.read_insert_same _ a b (by simp)

/-- A write leaves every other address alone. -/
theorem Memory.read_write_other (m : Memory) (a k : Nat) (b : Byte) (h : k ≠ a) :
    (m.write a b).read k = m.read k := by
  unfold Memory.write
  by_cases hb : b = Memory.unlisted a
  · simp [hb, Memory.read_filter_other m a k h]
  · simp [hb, Memory.read_insert_other _ a k b h, Memory.read_filter_other m a k h]

/-- What a byte reads as after one write. -/
theorem Memory.read_write (m : Memory) (a k : Nat) (b : Byte) :
    (m.write a b).read k = if k = a then b else m.read k := by
  by_cases h : k = a
  · simp [h]
  · simp [h, Memory.read_write_other m a k b h]

/-- What a byte reads as after a run of bytes is written at `a`. -/
theorem Memory.read_fill (m : Memory) (a k : Nat) (bs : List Byte) :
    (m.fill a bs).read k = if a ≤ k ∧ k < a + bs.length then bs.getD (k - a) 0#8 else m.read k := by
  induction bs generalizing m a with
  | nil => simp [Memory.fill]
  | cons b bs ih =>
    rw [Memory.fill, ih]
    by_cases hk : k = a
    · subst hk; simp
    · by_cases hin : a + 1 ≤ k ∧ k < a + 1 + bs.length
      · have h1 : a ≤ k ∧ k < a + (b :: bs).length := by simp; omega
        rw [if_pos hin, if_pos h1, show k - a = (k - (a + 1)) + 1 by omega]
        simp
      · have h1 : ¬ (a ≤ k ∧ k < a + (b :: bs).length) := by simp; omega
        rw [if_neg hin, if_neg h1, Memory.read_write_other _ _ _ _ hk]

theorem Memory.mem_insert {c : Host.Cell} (m : Memory) (a : Nat) (b : Byte) :
    c ∈ Memory.insert a b m ↔ c = (a, b) ∨ c ∈ m := by
  induction m with
  | nil => simp [Memory.insert]
  | cons d m ih =>
    by_cases hlt : d.1 < a
    · simp [Memory.insert, hlt, ih]; tauto
    · simp [Memory.insert, hlt]

theorem Memory.pairwise_insert (m : Memory) (a : Nat) (b : Byte) (hm : m.Pairwise fun c d => c.1 < d.1)
    (h : ∀ c ∈ m, c.1 ≠ a) : (Memory.insert a b m).Pairwise fun c d => c.1 < d.1 := by
  induction m with
  | nil => simp [Memory.insert]
  | cons d m ih =>
    obtain ⟨hd, hm⟩ := List.pairwise_cons.1 hm
    have hda : d.1 ≠ a := h d (by simp)
    by_cases hlt : d.1 < a
    · simp only [Memory.insert, hlt, if_true, List.pairwise_cons]
      refine ⟨fun c hc => ?_, ih hm fun c hc => h c (by simp [hc])⟩
      rcases (Memory.mem_insert m a b).1 hc with rfl | hc
      · exact hlt
      · exact hd c hc
    · simp only [Memory.insert, hlt, if_false, List.pairwise_cons]
      refine ⟨fun c hc => ?_, hd, hm⟩
      rcases List.mem_cons.1 hc with rfl | hc
      · omega
      · have := hd c hc; omega

/-- A write to an address of memory keeps the canonical form. -/
theorem Memory.wf_write {m : Memory} (h : m.wf) (a : Nat) (b : Byte) (ha : a < Config.memSize) : (m.write a b).wf := by
  have hp : (m.filter fun c => c.1 != a).Pairwise fun c d => c.1 < d.1 := h.1.filter _
  unfold Memory.write
  by_cases hb : b = Memory.unlisted a
  · simp only [hb, if_true]
    exact ⟨hp, fun c hc => h.2 c (List.mem_filter.1 hc).1⟩
  · simp only [hb, if_false]
    refine ⟨Memory.pairwise_insert _ a b hp (by simp), fun c hc => ?_⟩
    rcases (Memory.mem_insert _ a b).1 hc with rfl | hc
    · exact ⟨ha, hb⟩
    · exact h.2 c (List.mem_filter.1 hc).1

/-- A run of bytes that stays inside memory keeps the canonical form. -/
theorem Memory.wf_fill {m : Memory} (h : m.wf) (a : Nat) (bs : List Byte) (ha : a + bs.length ≤ Config.memSize) :
    (m.fill a bs).wf := by
  induction bs generalizing m a with
  | nil => exact h
  | cons b bs ih =>
    simp only [List.length_cons] at ha
    exact ih (Memory.wf_write h a b (by omega)) (a + 1) (by omega)

theorem Memory.wf_nil : Memory.wf [] := ⟨List.Pairwise.nil, fun _ hc => nomatch hc⟩

end Sys2Proof.Machine
end

