-- ==== Sys2Proof/Laws/State.lean ====
section
/-! SUPPORT. One lemma per field per update of the state, true by rfl: later proofs read a field of an updated state by simp. -/

namespace Sys2Proof.Machine.State

@[simp] theorem setV_v (s : State) (x : RegIdx) (b : Byte) : (s.setV x b).v = s.v.set x b := rfl
@[simp] theorem setV_i (s : State) (x : RegIdx) (b : Byte) : (s.setV x b).i = s.i := rfl
@[simp] theorem setV_pc (s : State) (x : RegIdx) (b : Byte) : (s.setV x b).pc = s.pc := rfl
@[simp] theorem setV_stack (s : State) (x : RegIdx) (b : Byte) : (s.setV x b).stack = s.stack := rfl
@[simp] theorem setV_dt (s : State) (x : RegIdx) (b : Byte) : (s.setV x b).dt = s.dt := rfl
@[simp] theorem setV_st (s : State) (x : RegIdx) (b : Byte) : (s.setV x b).st = s.st := rfl
@[simp] theorem setV_fb (s : State) (x : RegIdx) (b : Byte) : (s.setV x b).fb = s.fb := rfl
@[simp] theorem setV_mem (s : State) (x : RegIdx) (b : Byte) : (s.setV x b).mem = s.mem := rfl
@[simp] theorem setV_halted (s : State) (x : RegIdx) (b : Byte) : (s.setV x b).halted = s.halted := rfl
@[simp] theorem setV_fatalCause (s : State) (x : RegIdx) (b : Byte) : (s.setV x b).fatalCause = s.fatalCause := rfl
@[simp] theorem setV_fatalOpcode (s : State) (x : RegIdx) (b : Byte) : (s.setV x b).fatalOpcode = s.fatalOpcode := rfl
@[simp] theorem setV_fatalPc (s : State) (x : RegIdx) (b : Byte) : (s.setV x b).fatalPc = s.fatalPc := rfl
@[simp] theorem setV_fatalAddr (s : State) (x : RegIdx) (b : Byte) : (s.setV x b).fatalAddr = s.fatalAddr := rfl
@[simp] theorem setV_stackDepth (s : State) (x : RegIdx) (b : Byte) : (s.setV x b).stackDepth = s.stackDepth := rfl
@[simp] theorem setV_key (s : State) (x : RegIdx) (b : Byte) : (s.setV x b).key = s.key := rfl
@[simp] theorem setV_rand (s : State) (x : RegIdx) (b : Byte) : (s.setV x b).rand = s.rand := rfl
@[simp] theorem setV_schedule (s : State) (x : RegIdx) (b : Byte) : (s.setV x b).schedule = s.schedule := rfl
@[simp] theorem setV_draws (s : State) (x : RegIdx) (b : Byte) : (s.setV x b).draws = s.draws := rfl
@[simp] theorem setV_outputs (s : State) (x : RegIdx) (b : Byte) : (s.setV x b).outputs = s.outputs := rfl

@[simp] theorem setI_v (s : State) (w : Word) : (s.setI w).v = s.v := rfl
@[simp] theorem setI_i (s : State) (w : Word) : (s.setI w).i = w := rfl
@[simp] theorem setI_pc (s : State) (w : Word) : (s.setI w).pc = s.pc := rfl
@[simp] theorem setI_stack (s : State) (w : Word) : (s.setI w).stack = s.stack := rfl
@[simp] theorem setI_dt (s : State) (w : Word) : (s.setI w).dt = s.dt := rfl
@[simp] theorem setI_st (s : State) (w : Word) : (s.setI w).st = s.st := rfl
@[simp] theorem setI_fb (s : State) (w : Word) : (s.setI w).fb = s.fb := rfl
@[simp] theorem setI_mem (s : State) (w : Word) : (s.setI w).mem = s.mem := rfl
@[simp] theorem setI_halted (s : State) (w : Word) : (s.setI w).halted = s.halted := rfl
@[simp] theorem setI_fatalCause (s : State) (w : Word) : (s.setI w).fatalCause = s.fatalCause := rfl
@[simp] theorem setI_fatalOpcode (s : State) (w : Word) : (s.setI w).fatalOpcode = s.fatalOpcode := rfl
@[simp] theorem setI_fatalPc (s : State) (w : Word) : (s.setI w).fatalPc = s.fatalPc := rfl
@[simp] theorem setI_fatalAddr (s : State) (w : Word) : (s.setI w).fatalAddr = s.fatalAddr := rfl
@[simp] theorem setI_stackDepth (s : State) (w : Word) : (s.setI w).stackDepth = s.stackDepth := rfl
@[simp] theorem setI_key (s : State) (w : Word) : (s.setI w).key = s.key := rfl
@[simp] theorem setI_rand (s : State) (w : Word) : (s.setI w).rand = s.rand := rfl
@[simp] theorem setI_schedule (s : State) (w : Word) : (s.setI w).schedule = s.schedule := rfl
@[simp] theorem setI_draws (s : State) (w : Word) : (s.setI w).draws = s.draws := rfl
@[simp] theorem setI_outputs (s : State) (w : Word) : (s.setI w).outputs = s.outputs := rfl

@[simp] theorem setPc_v (s : State) (w : Word) : (s.setPc w).v = s.v := rfl
@[simp] theorem setPc_i (s : State) (w : Word) : (s.setPc w).i = s.i := rfl
@[simp] theorem setPc_pc (s : State) (w : Word) : (s.setPc w).pc = w := rfl
@[simp] theorem setPc_stack (s : State) (w : Word) : (s.setPc w).stack = s.stack := rfl
@[simp] theorem setPc_dt (s : State) (w : Word) : (s.setPc w).dt = s.dt := rfl
@[simp] theorem setPc_st (s : State) (w : Word) : (s.setPc w).st = s.st := rfl
@[simp] theorem setPc_fb (s : State) (w : Word) : (s.setPc w).fb = s.fb := rfl
@[simp] theorem setPc_mem (s : State) (w : Word) : (s.setPc w).mem = s.mem := rfl
@[simp] theorem setPc_halted (s : State) (w : Word) : (s.setPc w).halted = s.halted := rfl
@[simp] theorem setPc_fatalCause (s : State) (w : Word) : (s.setPc w).fatalCause = s.fatalCause := rfl
@[simp] theorem setPc_fatalOpcode (s : State) (w : Word) : (s.setPc w).fatalOpcode = s.fatalOpcode := rfl
@[simp] theorem setPc_fatalPc (s : State) (w : Word) : (s.setPc w).fatalPc = s.fatalPc := rfl
@[simp] theorem setPc_fatalAddr (s : State) (w : Word) : (s.setPc w).fatalAddr = s.fatalAddr := rfl
@[simp] theorem setPc_stackDepth (s : State) (w : Word) : (s.setPc w).stackDepth = s.stackDepth := rfl
@[simp] theorem setPc_key (s : State) (w : Word) : (s.setPc w).key = s.key := rfl
@[simp] theorem setPc_rand (s : State) (w : Word) : (s.setPc w).rand = s.rand := rfl
@[simp] theorem setPc_schedule (s : State) (w : Word) : (s.setPc w).schedule = s.schedule := rfl
@[simp] theorem setPc_draws (s : State) (w : Word) : (s.setPc w).draws = s.draws := rfl
@[simp] theorem setPc_outputs (s : State) (w : Word) : (s.setPc w).outputs = s.outputs := rfl

@[simp] theorem advance_v (s : State) : (s.advance).v = s.v := rfl
@[simp] theorem advance_i (s : State) : (s.advance).i = s.i := rfl
@[simp] theorem advance_pc (s : State) : (s.advance).pc = trunc16 (s.pc.toNat + 2) := rfl
@[simp] theorem advance_stack (s : State) : (s.advance).stack = s.stack := rfl
@[simp] theorem advance_dt (s : State) : (s.advance).dt = s.dt := rfl
@[simp] theorem advance_st (s : State) : (s.advance).st = s.st := rfl
@[simp] theorem advance_fb (s : State) : (s.advance).fb = s.fb := rfl
@[simp] theorem advance_mem (s : State) : (s.advance).mem = s.mem := rfl
@[simp] theorem advance_halted (s : State) : (s.advance).halted = s.halted := rfl
@[simp] theorem advance_fatalCause (s : State) : (s.advance).fatalCause = s.fatalCause := rfl
@[simp] theorem advance_fatalOpcode (s : State) : (s.advance).fatalOpcode = s.fatalOpcode := rfl
@[simp] theorem advance_fatalPc (s : State) : (s.advance).fatalPc = s.fatalPc := rfl
@[simp] theorem advance_fatalAddr (s : State) : (s.advance).fatalAddr = s.fatalAddr := rfl
@[simp] theorem advance_stackDepth (s : State) : (s.advance).stackDepth = s.stackDepth := rfl
@[simp] theorem advance_key (s : State) : (s.advance).key = s.key := rfl
@[simp] theorem advance_rand (s : State) : (s.advance).rand = s.rand := rfl
@[simp] theorem advance_schedule (s : State) : (s.advance).schedule = s.schedule := rfl
@[simp] theorem advance_draws (s : State) : (s.advance).draws = s.draws := rfl
@[simp] theorem advance_outputs (s : State) : (s.advance).outputs = s.outputs := rfl

@[simp] theorem setDt_v (s : State) (b : Byte) : (s.setDt b).v = s.v := rfl
@[simp] theorem setDt_i (s : State) (b : Byte) : (s.setDt b).i = s.i := rfl
@[simp] theorem setDt_pc (s : State) (b : Byte) : (s.setDt b).pc = s.pc := rfl
@[simp] theorem setDt_stack (s : State) (b : Byte) : (s.setDt b).stack = s.stack := rfl
@[simp] theorem setDt_dt (s : State) (b : Byte) : (s.setDt b).dt = b := rfl
@[simp] theorem setDt_st (s : State) (b : Byte) : (s.setDt b).st = s.st := rfl
@[simp] theorem setDt_fb (s : State) (b : Byte) : (s.setDt b).fb = s.fb := rfl
@[simp] theorem setDt_mem (s : State) (b : Byte) : (s.setDt b).mem = s.mem := rfl
@[simp] theorem setDt_halted (s : State) (b : Byte) : (s.setDt b).halted = s.halted := rfl
@[simp] theorem setDt_fatalCause (s : State) (b : Byte) : (s.setDt b).fatalCause = s.fatalCause := rfl
@[simp] theorem setDt_fatalOpcode (s : State) (b : Byte) : (s.setDt b).fatalOpcode = s.fatalOpcode := rfl
@[simp] theorem setDt_fatalPc (s : State) (b : Byte) : (s.setDt b).fatalPc = s.fatalPc := rfl
@[simp] theorem setDt_fatalAddr (s : State) (b : Byte) : (s.setDt b).fatalAddr = s.fatalAddr := rfl
@[simp] theorem setDt_stackDepth (s : State) (b : Byte) : (s.setDt b).stackDepth = s.stackDepth := rfl
@[simp] theorem setDt_key (s : State) (b : Byte) : (s.setDt b).key = s.key := rfl
@[simp] theorem setDt_rand (s : State) (b : Byte) : (s.setDt b).rand = s.rand := rfl
@[simp] theorem setDt_schedule (s : State) (b : Byte) : (s.setDt b).schedule = s.schedule := rfl
@[simp] theorem setDt_draws (s : State) (b : Byte) : (s.setDt b).draws = s.draws := rfl
@[simp] theorem setDt_outputs (s : State) (b : Byte) : (s.setDt b).outputs = s.outputs := rfl

@[simp] theorem setSt_v (s : State) (b : Byte) : (s.setSt b).v = s.v := rfl
@[simp] theorem setSt_i (s : State) (b : Byte) : (s.setSt b).i = s.i := rfl
@[simp] theorem setSt_pc (s : State) (b : Byte) : (s.setSt b).pc = s.pc := rfl
@[simp] theorem setSt_stack (s : State) (b : Byte) : (s.setSt b).stack = s.stack := rfl
@[simp] theorem setSt_dt (s : State) (b : Byte) : (s.setSt b).dt = s.dt := rfl
@[simp] theorem setSt_st (s : State) (b : Byte) : (s.setSt b).st = b := rfl
@[simp] theorem setSt_fb (s : State) (b : Byte) : (s.setSt b).fb = s.fb := rfl
@[simp] theorem setSt_mem (s : State) (b : Byte) : (s.setSt b).mem = s.mem := rfl
@[simp] theorem setSt_halted (s : State) (b : Byte) : (s.setSt b).halted = s.halted := rfl
@[simp] theorem setSt_fatalCause (s : State) (b : Byte) : (s.setSt b).fatalCause = s.fatalCause := rfl
@[simp] theorem setSt_fatalOpcode (s : State) (b : Byte) : (s.setSt b).fatalOpcode = s.fatalOpcode := rfl
@[simp] theorem setSt_fatalPc (s : State) (b : Byte) : (s.setSt b).fatalPc = s.fatalPc := rfl
@[simp] theorem setSt_fatalAddr (s : State) (b : Byte) : (s.setSt b).fatalAddr = s.fatalAddr := rfl
@[simp] theorem setSt_stackDepth (s : State) (b : Byte) : (s.setSt b).stackDepth = s.stackDepth := rfl
@[simp] theorem setSt_key (s : State) (b : Byte) : (s.setSt b).key = s.key := rfl
@[simp] theorem setSt_rand (s : State) (b : Byte) : (s.setSt b).rand = s.rand := rfl
@[simp] theorem setSt_schedule (s : State) (b : Byte) : (s.setSt b).schedule = s.schedule := rfl
@[simp] theorem setSt_draws (s : State) (b : Byte) : (s.setSt b).draws = s.draws := rfl
@[simp] theorem setSt_outputs (s : State) (b : Byte) : (s.setSt b).outputs = s.outputs := rfl

@[simp] theorem setFb_v (s : State) (f : Framebuffer) : (s.setFb f).v = s.v := rfl
@[simp] theorem setFb_i (s : State) (f : Framebuffer) : (s.setFb f).i = s.i := rfl
@[simp] theorem setFb_pc (s : State) (f : Framebuffer) : (s.setFb f).pc = s.pc := rfl
@[simp] theorem setFb_stack (s : State) (f : Framebuffer) : (s.setFb f).stack = s.stack := rfl
@[simp] theorem setFb_dt (s : State) (f : Framebuffer) : (s.setFb f).dt = s.dt := rfl
@[simp] theorem setFb_st (s : State) (f : Framebuffer) : (s.setFb f).st = s.st := rfl
@[simp] theorem setFb_fb (s : State) (f : Framebuffer) : (s.setFb f).fb = f := rfl
@[simp] theorem setFb_mem (s : State) (f : Framebuffer) : (s.setFb f).mem = s.mem := rfl
@[simp] theorem setFb_halted (s : State) (f : Framebuffer) : (s.setFb f).halted = s.halted := rfl
@[simp] theorem setFb_fatalCause (s : State) (f : Framebuffer) : (s.setFb f).fatalCause = s.fatalCause := rfl
@[simp] theorem setFb_fatalOpcode (s : State) (f : Framebuffer) : (s.setFb f).fatalOpcode = s.fatalOpcode := rfl
@[simp] theorem setFb_fatalPc (s : State) (f : Framebuffer) : (s.setFb f).fatalPc = s.fatalPc := rfl
@[simp] theorem setFb_fatalAddr (s : State) (f : Framebuffer) : (s.setFb f).fatalAddr = s.fatalAddr := rfl
@[simp] theorem setFb_stackDepth (s : State) (f : Framebuffer) : (s.setFb f).stackDepth = s.stackDepth := rfl
@[simp] theorem setFb_key (s : State) (f : Framebuffer) : (s.setFb f).key = s.key := rfl
@[simp] theorem setFb_rand (s : State) (f : Framebuffer) : (s.setFb f).rand = s.rand := rfl
@[simp] theorem setFb_schedule (s : State) (f : Framebuffer) : (s.setFb f).schedule = s.schedule := rfl
@[simp] theorem setFb_draws (s : State) (f : Framebuffer) : (s.setFb f).draws = s.draws := rfl
@[simp] theorem setFb_outputs (s : State) (f : Framebuffer) : (s.setFb f).outputs = s.outputs := rfl

@[simp] theorem setMem_v (s : State) (m : Memory) : (s.setMem m).v = s.v := rfl
@[simp] theorem setMem_i (s : State) (m : Memory) : (s.setMem m).i = s.i := rfl
@[simp] theorem setMem_pc (s : State) (m : Memory) : (s.setMem m).pc = s.pc := rfl
@[simp] theorem setMem_stack (s : State) (m : Memory) : (s.setMem m).stack = s.stack := rfl
@[simp] theorem setMem_dt (s : State) (m : Memory) : (s.setMem m).dt = s.dt := rfl
@[simp] theorem setMem_st (s : State) (m : Memory) : (s.setMem m).st = s.st := rfl
@[simp] theorem setMem_fb (s : State) (m : Memory) : (s.setMem m).fb = s.fb := rfl
@[simp] theorem setMem_mem (s : State) (m : Memory) : (s.setMem m).mem = m := rfl
@[simp] theorem setMem_halted (s : State) (m : Memory) : (s.setMem m).halted = s.halted := rfl
@[simp] theorem setMem_fatalCause (s : State) (m : Memory) : (s.setMem m).fatalCause = s.fatalCause := rfl
@[simp] theorem setMem_fatalOpcode (s : State) (m : Memory) : (s.setMem m).fatalOpcode = s.fatalOpcode := rfl
@[simp] theorem setMem_fatalPc (s : State) (m : Memory) : (s.setMem m).fatalPc = s.fatalPc := rfl
@[simp] theorem setMem_fatalAddr (s : State) (m : Memory) : (s.setMem m).fatalAddr = s.fatalAddr := rfl
@[simp] theorem setMem_stackDepth (s : State) (m : Memory) : (s.setMem m).stackDepth = s.stackDepth := rfl
@[simp] theorem setMem_key (s : State) (m : Memory) : (s.setMem m).key = s.key := rfl
@[simp] theorem setMem_rand (s : State) (m : Memory) : (s.setMem m).rand = s.rand := rfl
@[simp] theorem setMem_schedule (s : State) (m : Memory) : (s.setMem m).schedule = s.schedule := rfl
@[simp] theorem setMem_draws (s : State) (m : Memory) : (s.setMem m).draws = s.draws := rfl
@[simp] theorem setMem_outputs (s : State) (m : Memory) : (s.setMem m).outputs = s.outputs := rfl

@[simp] theorem setStack_v (s : State) (k : List Word) : (s.setStack k).v = s.v := rfl
@[simp] theorem setStack_i (s : State) (k : List Word) : (s.setStack k).i = s.i := rfl
@[simp] theorem setStack_pc (s : State) (k : List Word) : (s.setStack k).pc = s.pc := rfl
@[simp] theorem setStack_stack (s : State) (k : List Word) : (s.setStack k).stack = k := rfl
@[simp] theorem setStack_dt (s : State) (k : List Word) : (s.setStack k).dt = s.dt := rfl
@[simp] theorem setStack_st (s : State) (k : List Word) : (s.setStack k).st = s.st := rfl
@[simp] theorem setStack_fb (s : State) (k : List Word) : (s.setStack k).fb = s.fb := rfl
@[simp] theorem setStack_mem (s : State) (k : List Word) : (s.setStack k).mem = s.mem := rfl
@[simp] theorem setStack_halted (s : State) (k : List Word) : (s.setStack k).halted = s.halted := rfl
@[simp] theorem setStack_fatalCause (s : State) (k : List Word) : (s.setStack k).fatalCause = s.fatalCause := rfl
@[simp] theorem setStack_fatalOpcode (s : State) (k : List Word) : (s.setStack k).fatalOpcode = s.fatalOpcode := rfl
@[simp] theorem setStack_fatalPc (s : State) (k : List Word) : (s.setStack k).fatalPc = s.fatalPc := rfl
@[simp] theorem setStack_fatalAddr (s : State) (k : List Word) : (s.setStack k).fatalAddr = s.fatalAddr := rfl
@[simp] theorem setStack_stackDepth (s : State) (k : List Word) : (s.setStack k).stackDepth = s.stackDepth := rfl
@[simp] theorem setStack_key (s : State) (k : List Word) : (s.setStack k).key = s.key := rfl
@[simp] theorem setStack_rand (s : State) (k : List Word) : (s.setStack k).rand = s.rand := rfl
@[simp] theorem setStack_schedule (s : State) (k : List Word) : (s.setStack k).schedule = s.schedule := rfl
@[simp] theorem setStack_draws (s : State) (k : List Word) : (s.setStack k).draws = s.draws := rfl
@[simp] theorem setStack_outputs (s : State) (k : List Word) : (s.setStack k).outputs = s.outputs := rfl

@[simp] theorem emit_v (s : State) (o : Output) : (s.emit o).v = s.v := rfl
@[simp] theorem emit_i (s : State) (o : Output) : (s.emit o).i = s.i := rfl
@[simp] theorem emit_pc (s : State) (o : Output) : (s.emit o).pc = s.pc := rfl
@[simp] theorem emit_stack (s : State) (o : Output) : (s.emit o).stack = s.stack := rfl
@[simp] theorem emit_dt (s : State) (o : Output) : (s.emit o).dt = s.dt := rfl
@[simp] theorem emit_st (s : State) (o : Output) : (s.emit o).st = s.st := rfl
@[simp] theorem emit_fb (s : State) (o : Output) : (s.emit o).fb = s.fb := rfl
@[simp] theorem emit_mem (s : State) (o : Output) : (s.emit o).mem = s.mem := rfl
@[simp] theorem emit_halted (s : State) (o : Output) : (s.emit o).halted = s.halted := rfl
@[simp] theorem emit_fatalCause (s : State) (o : Output) : (s.emit o).fatalCause = s.fatalCause := rfl
@[simp] theorem emit_fatalOpcode (s : State) (o : Output) : (s.emit o).fatalOpcode = s.fatalOpcode := rfl
@[simp] theorem emit_fatalPc (s : State) (o : Output) : (s.emit o).fatalPc = s.fatalPc := rfl
@[simp] theorem emit_fatalAddr (s : State) (o : Output) : (s.emit o).fatalAddr = s.fatalAddr := rfl
@[simp] theorem emit_stackDepth (s : State) (o : Output) : (s.emit o).stackDepth = s.stackDepth := rfl
@[simp] theorem emit_key (s : State) (o : Output) : (s.emit o).key = s.key := rfl
@[simp] theorem emit_rand (s : State) (o : Output) : (s.emit o).rand = s.rand := rfl
@[simp] theorem emit_schedule (s : State) (o : Output) : (s.emit o).schedule = s.schedule := rfl
@[simp] theorem emit_draws (s : State) (o : Output) : (s.emit o).draws = s.draws := rfl
@[simp] theorem emit_outputs (s : State) (o : Output) : (s.emit o).outputs = o :: s.outputs := rfl

@[simp] theorem sample_v (s : State) (k : KeySample) (b : Byte) : (s.sample k b).v = s.v := rfl
@[simp] theorem sample_i (s : State) (k : KeySample) (b : Byte) : (s.sample k b).i = s.i := rfl
@[simp] theorem sample_pc (s : State) (k : KeySample) (b : Byte) : (s.sample k b).pc = s.pc := rfl
@[simp] theorem sample_stack (s : State) (k : KeySample) (b : Byte) : (s.sample k b).stack = s.stack := rfl
@[simp] theorem sample_dt (s : State) (k : KeySample) (b : Byte) : (s.sample k b).dt = s.dt := rfl
@[simp] theorem sample_st (s : State) (k : KeySample) (b : Byte) : (s.sample k b).st = s.st := rfl
@[simp] theorem sample_fb (s : State) (k : KeySample) (b : Byte) : (s.sample k b).fb = s.fb := rfl
@[simp] theorem sample_mem (s : State) (k : KeySample) (b : Byte) : (s.sample k b).mem = s.mem := rfl
@[simp] theorem sample_halted (s : State) (k : KeySample) (b : Byte) : (s.sample k b).halted = s.halted := rfl
@[simp] theorem sample_fatalCause (s : State) (k : KeySample) (b : Byte) : (s.sample k b).fatalCause = s.fatalCause := rfl
@[simp] theorem sample_fatalOpcode (s : State) (k : KeySample) (b : Byte) : (s.sample k b).fatalOpcode = s.fatalOpcode := rfl
@[simp] theorem sample_fatalPc (s : State) (k : KeySample) (b : Byte) : (s.sample k b).fatalPc = s.fatalPc := rfl
@[simp] theorem sample_fatalAddr (s : State) (k : KeySample) (b : Byte) : (s.sample k b).fatalAddr = s.fatalAddr := rfl
@[simp] theorem sample_stackDepth (s : State) (k : KeySample) (b : Byte) : (s.sample k b).stackDepth = s.stackDepth := rfl
@[simp] theorem sample_key (s : State) (k : KeySample) (b : Byte) : (s.sample k b).key = k := rfl
@[simp] theorem sample_rand (s : State) (k : KeySample) (b : Byte) : (s.sample k b).rand = b := rfl
@[simp] theorem sample_schedule (s : State) (k : KeySample) (b : Byte) : (s.sample k b).schedule = s.schedule := rfl
@[simp] theorem sample_draws (s : State) (k : KeySample) (b : Byte) : (s.sample k b).draws = s.draws := rfl
@[simp] theorem sample_outputs (s : State) (k : KeySample) (b : Byte) : (s.sample k b).outputs = s.outputs := rfl

@[simp] theorem raiseFatal_v (s : State) (f : Fault) (op : Word) : (s.raiseFatal f op).v = s.v := rfl
@[simp] theorem raiseFatal_i (s : State) (f : Fault) (op : Word) : (s.raiseFatal f op).i = s.i := rfl
@[simp] theorem raiseFatal_pc (s : State) (f : Fault) (op : Word) : (s.raiseFatal f op).pc = s.pc := rfl
@[simp] theorem raiseFatal_stack (s : State) (f : Fault) (op : Word) : (s.raiseFatal f op).stack = s.stack := rfl
@[simp] theorem raiseFatal_dt (s : State) (f : Fault) (op : Word) : (s.raiseFatal f op).dt = s.dt := rfl
@[simp] theorem raiseFatal_st (s : State) (f : Fault) (op : Word) : (s.raiseFatal f op).st = s.st := rfl
@[simp] theorem raiseFatal_fb (s : State) (f : Fault) (op : Word) : (s.raiseFatal f op).fb = s.fb := rfl
@[simp] theorem raiseFatal_mem (s : State) (f : Fault) (op : Word) : (s.raiseFatal f op).mem = s.mem := rfl
@[simp] theorem raiseFatal_halted (s : State) (f : Fault) (op : Word) : (s.raiseFatal f op).halted = true := rfl
@[simp] theorem raiseFatal_fatalCause (s : State) (f : Fault) (op : Word) : (s.raiseFatal f op).fatalCause = f.code := rfl
@[simp] theorem raiseFatal_fatalOpcode (s : State) (f : Fault) (op : Word) : (s.raiseFatal f op).fatalOpcode = op := rfl
@[simp] theorem raiseFatal_fatalPc (s : State) (f : Fault) (op : Word) : (s.raiseFatal f op).fatalPc = s.pc := rfl
@[simp] theorem raiseFatal_fatalAddr (s : State) (f : Fault) (op : Word) : (s.raiseFatal f op).fatalAddr = f.address := rfl
@[simp] theorem raiseFatal_stackDepth (s : State) (f : Fault) (op : Word) : (s.raiseFatal f op).stackDepth = s.stackDepth := rfl
@[simp] theorem raiseFatal_key (s : State) (f : Fault) (op : Word) : (s.raiseFatal f op).key = s.key := rfl
@[simp] theorem raiseFatal_rand (s : State) (f : Fault) (op : Word) : (s.raiseFatal f op).rand = s.rand := rfl
@[simp] theorem raiseFatal_schedule (s : State) (f : Fault) (op : Word) : (s.raiseFatal f op).schedule = s.schedule := rfl
@[simp] theorem raiseFatal_draws (s : State) (f : Fault) (op : Word) : (s.raiseFatal f op).draws = s.draws := rfl
@[simp] theorem raiseFatal_outputs (s : State) (f : Fault) (op : Word) : (s.raiseFatal f op).outputs = s.outputs := rfl

end Sys2Proof.Machine.State
end

