-- ==== Sys2Proof/Laws/Ops.lean ====
section
/-! SUPPORT. One lemma per shared operation: everything it can answer. Later proofs cite these and unfold no operation. -/

namespace Sys2Proof.Machine

open Sys2Proof.Safety

/-! Narrowing. -/

/-- A truncated natural sum is the wrapping sum. -/
theorem trunc16_toNat_add (w : Word) (k : Nat) : trunc16 (w.toNat + k) = w + BitVec.ofNat 16 k := by
  apply BitVec.eq_of_toNat_eq
  simp [trunc16]

theorem toNat_zext16 (nnn : Addr12) : (zext16 nnn).toNat = nnn.toNat := by
  have := nnn.isLt
  simp only [zext16, BitVec.toNat_setWidth]
  omega

/-! Registers. -/

theorem State.getV_setV (s : State) (x r : RegIdx) (b : Byte) :
    (s.setV x b).getV r = if r = x then b else s.getV r := by
  simp only [State.getV, State.setV, Fin.getElem_fin, Vector.getElem_set]
  by_cases h : x.val = r.val
  · have : r = x := Fin.ext h.symm
    simp [this]
  · have : ¬ r = x := fun e => h (by rw [e])
    simp [h, this]

@[simp] theorem State.getV_setV_same (s : State) (x : RegIdx) (b : Byte) : (s.setV x b).getV x = b := by
  simp [State.getV_setV]

/-- Register files with the same registers are equal. -/
theorem State.v_ext {s t : State} (h : ∀ r, s.getV r = t.getV r) : s.v = t.v := by
  apply Vector.ext
  intro k hk
  exact h ⟨k, hk⟩

/-- Reading a register depends on the register file alone. -/
theorem State.getV_congr {s t : State} (h : s.v = t.v) (r : RegIdx) : s.getV r = t.getV r := by
  simp [State.getV, h]

/-- A skip changes PC alone. -/
theorem State.skipIf_eq (s : State) (c : Bool) :
    s.skipIf c = s.setPc (if c then trunc16 (s.pc.toNat + 4) else trunc16 (s.pc.toNat + 2)) := by
  cases c <;> rfl

/-! Memory accesses. -/

theorem State.memRead_eq (s : State) (a : Nat) :
    s.memRead a = if a < 0x1000 then .ok (s.mem.read a) else .error (.memoryOutOfRange a) := rfl

theorem State.memWrite_eq (s : State) (a : Nat) (b : Byte) :
    s.memWrite a b = if a < 0x1000 then .ok (s.setMem (s.mem.write a b)) else .error (.memoryOutOfRange a) := rfl

theorem bytesAt_succ (m : Memory) (a count : Nat) :
    bytesAt m a (count + 1) = m.read a :: bytesAt m (a + 1) count := by
  simp only [bytesAt, List.range_succ_eq_map, List.map_cons, List.map_map, Nat.add_zero]
  congr 1
  apply List.map_congr_left
  intro k _
  simp [Nat.add_assoc, Nat.add_comm 1 k]

@[simp] theorem length_bytesAt (m : Memory) (a count : Nat) : (bytesAt m a count).length = count := by
  simp [bytesAt]

theorem getD_bytesAt (m : Memory) (a count k : Nat) (hk : k < count) : (bytesAt m a count).getD k 0#8 = m.read (a + k) := by
  simp [bytesAt, List.getD, hk]

/-- A run of byte reads: the bytes, or the first address beyond memory. -/
theorem State.readBlock_eq (s : State) (a count : Nat) :
    s.readBlock a count =
      if count = 0 ∨ a + count ≤ 0x1000 then .ok (bytesAt s.mem a count)
      else .error (.memoryOutOfRange (firstBeyond a)) := by
  induction count generalizing a with
  | zero => simp [State.readBlock, bytesAt]
  | succ count ih =>
    rw [State.readBlock, State.memRead_eq, bytesAt_succ, ih]
    unfold firstBeyond
    by_cases h1 : a < 0x1000
    · by_cases h2 : count = 0 ∨ a + 1 + count ≤ 0x1000
      · have h3 : count + 1 = 0 ∨ a + (count + 1) ≤ 0x1000 := by omega
        simp only [h1, h2, h3, if_true]
      · have h3 : ¬ (count + 1 = 0 ∨ a + (count + 1) ≤ 0x1000) := by omega
        have h4 : (if a + 1 < 0x1000 then 0x1000 else a + 1) = 0x1000 := by split <;> omega
        simp only [h1, h2, h3, if_true, if_false, h4]
    · have h3 : ¬ (count + 1 = 0 ∨ a + (count + 1) ≤ 0x1000) := by omega
      simp only [h1, h3, if_false]

@[simp] theorem State.setMem_setMem (s : State) (m m' : Memory) : (s.setMem m).setMem m' = s.setMem m' := rfl

@[simp] theorem State.setMem_self (s : State) : s.setMem s.mem = s := rfl

/-- A run of byte writes: all of them, or the first address beyond memory. -/
theorem State.writeBlock_eq (s : State) (a : Nat) (bs : List Byte) :
    s.writeBlock a bs =
      if bs.length = 0 ∨ a + bs.length ≤ 0x1000 then .ok (s.setMem (s.mem.fill a bs))
      else .error (.memoryOutOfRange (firstBeyond a)) := by
  induction bs generalizing s a with
  | nil => simp [State.writeBlock, Memory.fill]
  | cons b bs ih =>
    rw [State.writeBlock, State.memWrite_eq, Memory.fill, List.length_cons]
    unfold firstBeyond
    by_cases h1 : a < 0x1000
    · simp only [h1, if_true]
      rw [ih]
      unfold firstBeyond
      by_cases h2 : bs.length = 0 ∨ a + 1 + bs.length ≤ 0x1000
      · have h3 : bs.length + 1 = 0 ∨ a + (bs.length + 1) ≤ 0x1000 := by omega
        simp only [h2, h3, if_true, State.setMem_setMem, State.setMem_mem]
      · have h3 : ¬ (bs.length + 1 = 0 ∨ a + (bs.length + 1) ≤ 0x1000) := by omega
        have h4 : (if a + 1 < 0x1000 then 0x1000 else a + 1) = 0x1000 := by split <;> omega
        simp only [h2, h3, if_false, h4]
    · have h3 : ¬ (bs.length + 1 = 0 ∨ a + (bs.length + 1) ≤ 0x1000) := by omega
      simp only [h1, h3, if_false]

/-- The fetch: the word at PC, or the first address beyond memory. -/
theorem State.fetch_eq (s : State) :
    s.fetch =
      if s.pc.toNat + 1 < 0x1000 then .ok (s.mem.read s.pc.toNat ++ s.mem.read (s.pc.toNat + 1))
      else .error (.memoryOutOfRange (firstBeyond s.pc.toNat)) := by
  unfold State.fetch firstBeyond
  rw [State.memRead_eq, State.memRead_eq]
  by_cases h1 : s.pc.toNat < 0x1000
  · by_cases h2 : s.pc.toNat + 1 < 0x1000
    · simp [h1, h2]
    · have : s.pc.toNat + 1 = 0x1000 := by omega
      simp [h1, this]
  · have h2 : ¬ s.pc.toNat + 1 < 0x1000 := by omega
    simp [h1, h2]

/-! The stack controller. -/

theorem State.push_eq (s : State) (w : Word) :
    s.push w = if s.stackFull then .error .stackOverflow else .ok (s.setStack (s.stack ++ [w])) := rfl

theorem State.stackFull_iff (s : State) :
    s.stackFull = true ↔ ∃ depth, s.stackDepth = some depth ∧ depth ≤ s.stack.length := by
  unfold State.stackFull
  split
  · next d h => simp [h]
  · next h => simp [h]

theorem State.pop_empty (s : State) (h : s.stack = []) : s.pop = .error .stackUnderflow := by
  simp [State.pop, h]

theorem State.pop_concat (s : State) (rest : List Word) (w : Word) (h : s.stack = rest ++ [w]) :
    s.pop = .ok (w, s.setStack rest) := by
  simp [State.pop, h]

/-! Register blocks. -/

theorem State.length_dumpRegs (s : State) (x : RegIdx) : (s.dumpRegs x).length = x.val + 1 := by
  simp [State.dumpRegs]

theorem State.getD_dumpRegs (s : State) (x r : RegIdx) (h : r.val ≤ x.val) : (s.dumpRegs x).getD r.val 0#8 = s.getV r := by
  have h1 : r.val < x.val + 1 := by omega
  simp [State.dumpRegs, List.getD, h1, State.getV]

/-- A register after a block is loaded from register `k` on. -/
theorem State.getV_loadRegs (s : State) (k : Nat) (bs : List Byte) (hk : k + bs.length ≤ 16) (r : RegIdx) :
    (s.loadRegs k bs).getV r = if k ≤ r.val ∧ r.val < k + bs.length then bs.getD (r.val - k) 0#8 else s.getV r := by
  induction bs generalizing s k with
  | nil =>
    have : ¬ (k ≤ r.val ∧ r.val < k + ([] : List Byte).length) := by simp
    rw [if_neg this]; rfl
  | cons b bs ih =>
    simp only [List.length_cons] at hk
    rw [State.loadRegs, ih _ (k + 1) (by omega), State.getV_setV]
    have hkv : (Fin.ofNat 16 k).val = k := Nat.mod_eq_of_lt (by omega)
    by_cases hr : r.val = k
    · have e : r = Fin.ofNat 16 k := Fin.ext (by rw [hkv, hr])
      rw [if_neg (by omega), if_pos e, if_pos (by simp; omega), hr]
      simp
    · have e : ¬ r = Fin.ofNat 16 k := fun e => hr (by rw [e, hkv])
      rw [if_neg e]
      by_cases hin : k + 1 ≤ r.val ∧ r.val < k + 1 + bs.length
      · rw [if_pos hin, if_pos (by simp; omega), show r.val - k = (r.val - (k + 1)) + 1 by omega]
        simp
      · rw [if_neg hin, if_neg (by simp; omega)]

/-- Loading a block changes general registers alone. -/
theorem State.loadRegs_frame (s : State) (k : Nat) (bs : List Byte) :
    s.loadRegs k bs = { s with v := (s.loadRegs k bs).v } := by
  induction bs generalizing s k with
  | nil => rfl
  | cons b bs ih => rw [State.loadRegs, ih]; rfl

/-! What a stored block reads as. -/

/-- Memory after a register dump reads as `dumpedByte` says. -/
theorem Memory.read_fill_dump (s : State) (x : RegIdx) (a : Nat) :
    (s.mem.fill s.base (s.dumpRegs x)).read a = dumpedByte x s a := by
  rw [Memory.read_fill, State.length_dumpRegs]
  unfold dumpedByte
  have hx := x.isLt
  by_cases h : s.base ≤ a ∧ a ≤ s.base + x.val
  · have hv : (Fin.ofNat 16 (a - s.base)).val = a - s.base := Nat.mod_eq_of_lt (by omega)
    rw [if_pos (by omega), if_pos h, ← State.getD_dumpRegs s x _ (by omega), hv]
  · rw [if_neg (by omega), if_neg h]

/-- Memory after a BCD store reads as `digitByte` says. -/
theorem Memory.read_fill_digits (s : State) (x : RegIdx) (a : Nat) :
    (s.mem.fill s.base (bcdDigits (s.getV x))).read a = digitByte x s a := by
  rw [Memory.read_fill, show (bcdDigits (s.getV x)).length = 3 from rfl]
  unfold digitByte
  by_cases h : s.base ≤ a ∧ a < s.base + 3
  · obtain ⟨k, rfl⟩ := Nat.exists_eq_add_of_le h.1
    have hk : k = 0 ∨ k = 1 ∨ k = 2 := by omega
    rw [if_pos h, Nat.add_sub_cancel_left]
    rcases hk with rfl | rfl | rfl
    · simp [bcdDigits, trunc8]
    · simp [bcdDigits, trunc8]
    · simp [bcdDigits, trunc8]
  · rw [if_neg h, if_neg (by omega), if_neg (by omega), if_neg (by omega)]

/-! Counting timer ticks. -/

@[simp] theorem timerTicks_zero (ticks : Nat → Tick) : timerTicks ticks 0 = 0 := rfl

theorem timerTicks_succ (ticks : Nat → Tick) (k : Nat) :
    timerTicks ticks (k + 1) = timerTicks ticks k + if ticks k = .timer then 1 else 0 := by
  simp [timerTicks, List.range_succ]

/-! Ends of an instruction. -/

@[simp] theorem State.orFatal_ok (s : State) (op : Word) (t : State) : s.orFatal op (.ok t) = .next t := rfl

@[simp] theorem State.orFatal_error (s : State) (op : Word) (f : Fault) :
    s.orFatal op (.error f) = .next (s.raiseFatal f op) := rfl

/-- An instruction that may raise a fatal error ends in its result or in the halted state, never outside a next state. -/
theorem State.orFatal_cases (s : State) (op : Word) (r : Except Fault State) :
    (∃ t, r = .ok t ∧ s.orFatal op r = .next t) ∨ (∃ f, r = .error f ∧ s.orFatal op r = .next (s.raiseFatal f op)) := by
  cases r with
  | ok t => exact Or.inl ⟨t, rfl, rfl⟩
  | error f => exact Or.inr ⟨f, rfl, rfl⟩

/-! Strobes. -/

theorem State.strobe_frame (s : State) :
    s.strobe = { s with schedule := s.strobe.schedule, draws := s.strobe.draws } := by
  unfold State.strobe; split <;> rfl

theorem State.nextTick_cons (s : State) (t : Tick) (rest : List Tick) (h : s.schedule = t :: rest) :
    s.nextTick = t ∧ s.strobe = { s with schedule := rest } := by
  simp [State.nextTick, State.strobe, h]

theorem State.nextTick_nil (s : State) (h : s.schedule = []) :
    s.nextTick = .cpu (Config.freeKey s.draws) (Config.freeRand s.draws) ∧ s.strobe = { s with draws := s.draws + 1 } := by
  simp [State.nextTick, State.strobe, h]

end Sys2Proof.Machine
end

