-- ==== Sys2Proof/Laws/Flags.lean ====
section
/-! SUPPORT. The ALU's results as bit-vector arithmetic, and what an ALU instruction leaves in each register. -/

namespace Sys2Proof.Machine

theorem aluResult_addnc (a b : Byte) : aluResult .addnc a b = a + b := by
  apply BitVec.eq_of_toNat_eq; simp [aluResult, trunc8]

theorem aluResult_add (a b : Byte) : aluResult .add a b = a + b := by
  apply BitVec.eq_of_toNat_eq; simp [aluResult, trunc8]

theorem aluResult_sub (a b : Byte) : aluResult .sub a b = a - b := by
  apply BitVec.eq_of_toNat_eq
  have := b.isLt
  simp only [aluResult, trunc8, BitVec.toNat_ofNat, BitVec.toNat_sub]
  omega

theorem aluResult_subn (a b : Byte) : aluResult .subn a b = b - a := by
  apply BitVec.eq_of_toNat_eq
  have := a.isLt
  simp only [aluResult, trunc8, BitVec.toNat_ofNat, BitVec.toNat_sub]
  omega

theorem aluResult_shr (a b : Byte) : aluResult .shr a b = a >>> 1 := by
  apply BitVec.eq_of_toNat_eq
  have := a.isLt
  simp only [aluResult, trunc8, BitVec.toNat_ofNat, BitVec.toNat_ushiftRight, Nat.shiftRight_eq_div_pow]
  omega

theorem aluResult_shl (a b : Byte) : aluResult .shl a b = a <<< 1 := by
  apply BitVec.eq_of_toNat_eq
  simp only [aluResult, trunc8, BitVec.toNat_ofNat, BitVec.toNat_shiftLeft, Nat.shiftLeft_eq]


/-- A register after an ALU instruction: VF holds the flag where one is written, the destination the result, the rest are kept. -/
theorem State.getV_alu (s : State) (fn : AluFn) (x r : RegIdx) (a b : Byte) :
    (s.alu fn x a b).getV r =
      match aluFlag fn a b with
      | some f => if r = vf then flagByte f else if r = x then aluResult fn a b else s.getV r
      | none => if r = x then aluResult fn a b else s.getV r := by
  unfold State.alu
  cases aluFlag fn a b with
  | none => exact State.getV_setV s x r _
  | some f => exact (State.getV_setV _ vf r _).trans (by rw [State.getV_setV])

/-- An ALU instruction changes general registers and advances PC. -/
theorem State.alu_frame (s : State) (fn : AluFn) (x : RegIdx) (a b : Byte) :
    s.alu fn x a b = { s with v := (s.alu fn x a b).v, pc := trunc16 (s.pc.toNat + 2) } := by
  unfold State.alu
  cases aluFlag fn a b <;> rfl

end Sys2Proof.Machine
end

