-- ==== Sys2Proof/Laws/Framebuffer.lean ====
section
/-! SUPPORT. The laws of the framebuffer: the pixel primitives, and what a whole blit does to each cell and to the collision latch. -/

namespace Sys2Proof.Machine

open Sys2Proof.Safety

theorem Framebuffer.pixel_put (fb : Framebuffer) (x x' : Fin 64) (y y' : Fin 32) (b : Bool) :
    (fb.put x y b).pixel x' y' = if x' = x ∧ y' = y then b else fb.pixel x' y' := by
  simp only [Framebuffer.put, Framebuffer.pixel, Fin.getElem_fin, Vector.getElem_set]
  by_cases hy : y.val = y'.val
  · by_cases hx : x.val = x'.val
    · have h1 : x' = x := Fin.ext hx.symm
      have h2 : y' = y := Fin.ext hy.symm
      simp [h1, h2]
    · have h1 : ¬ x' = x := fun h => hx (by rw [h])
      have h2 : y' = y := Fin.ext hy.symm
      simp [h1, h2, hx]
  · have h2 : ¬ y' = y := fun h => hy (by rw [h])
    simp [hy, h2]

theorem Framebuffer.pixel_toggle (fb : Framebuffer) (x x' : Fin 64) (y y' : Fin 32) :
    (fb.toggle x y).pixel x' y' = (if x' = x ∧ y' = y then !fb.pixel x' y' else fb.pixel x' y') := by
  unfold Framebuffer.toggle
  rw [Framebuffer.pixel_put]
  split
  · next h => obtain ⟨rfl, rfl⟩ := h; rfl
  · rfl

@[simp] theorem Framebuffer.pixel_setPixel (fb : Framebuffer) (x : Fin 64) (y : Fin 32) : (fb.setPixel x y).pixel x y = true := by
  simp [Framebuffer.setPixel, Framebuffer.pixel_put]

@[simp] theorem Framebuffer.pixel_clearPixel (fb : Framebuffer) (x : Fin 64) (y : Fin 32) :
    (fb.clearPixel x y).pixel x y = false := by
  simp [Framebuffer.clearPixel, Framebuffer.pixel_put]

@[simp] theorem Framebuffer.pixel_clearAll (x : Fin 64) (y : Fin 32) : Framebuffer.clearAll.pixel x y = false := by
  simp [Framebuffer.clearAll, Framebuffer.pixel]

/-- Two framebuffers with the same cells are equal. -/
theorem Framebuffer.ext_pixel {f g : Framebuffer} (h : ∀ x y, f.pixel x y = g.pixel x y) : f = g := by
  apply Vector.ext
  intro y hy
  apply Vector.ext
  intro x hx
  exact h ⟨x, hx⟩ ⟨y, hy⟩

theorem wrapX_eq_iff (p : Nat) (x : Fin 64) : x = wrapX p ↔ p % 64 = x.val := by
  constructor
  · rintro rfl; rfl
  · intro h; exact Fin.ext h.symm

theorem wrapY_eq_iff (p : Nat) (y : Fin 32) : y = wrapY p ↔ p % 32 = y.val := by
  constructor
  · rintro rfl; rfl
  · intro h; exact Fin.ext h.symm

/-- One column step on a cell: toggled where the bit is set and the cell is the column's. -/
theorem Blit.pixel_column (row : Byte) (ox py c : Nat) (b : Blit) (x : Fin 64) (y : Fin 32) :
    (Blit.column row ox py b c).fb.pixel x y =
      if row.getLsbD (7 - c) = true ∧ (ox + c) % 64 = x.val ∧ py % 32 = y.val then !b.fb.pixel x y else b.fb.pixel x y := by
  unfold Blit.column Blit.toggleAt
  by_cases hb : row.getLsbD (7 - c) = true
  · simp only [hb, if_true, Framebuffer.pixel_toggle, wrapX_eq_iff, wrapY_eq_iff, true_and]
  · simp [hb]

theorem Blit.collision_column (row : Byte) (ox py c : Nat) (b : Blit) :
    (Blit.column row ox py b c).collision =
      (b.collision || (row.getLsbD (7 - c) && b.fb.pixel (wrapX (ox + c)) (wrapY py))) := by
  unfold Blit.column Blit.toggleAt
  by_cases hb : row.getLsbD (7 - c) = true
  · simp [hb]
  · simp [hb]

/-- Does one of the columns `cs` of a sprite row hit cell (x, y)? -/
def columnsHit (row : Byte) (ox py : Nat) (cs : List Nat) (x : Fin 64) (y : Fin 32) : Prop :=
  ∃ c ∈ cs, row.getLsbD (7 - c) = true ∧ (ox + c) % 64 = x.val ∧ py % 32 = y.val

theorem columnsHit_cons (row : Byte) (ox py c : Nat) (cs : List Nat) (x : Fin 64) (y : Fin 32) :
    columnsHit row ox py (c :: cs) x y ↔
      (row.getLsbD (7 - c) = true ∧ (ox + c) % 64 = x.val ∧ py % 32 = y.val) ∨ columnsHit row ox py cs x y := by
  simp [columnsHit]

/-- Columns that land on pairwise different cells toggle exactly the cells they hit. -/
theorem Blit.pixel_columns (row : Byte) (ox py : Nat) (cs : List Nat)
    (hcs : cs.Pairwise fun c d => (ox + c) % 64 ≠ (ox + d) % 64) (b : Blit) (x : Fin 64) (y : Fin 32) :
    (columnsHit row ox py cs x y → (cs.foldl (Blit.column row ox py) b).fb.pixel x y = !b.fb.pixel x y) ∧
      (¬ columnsHit row ox py cs x y → (cs.foldl (Blit.column row ox py) b).fb.pixel x y = b.fb.pixel x y) := by
  induction cs generalizing b with
  | nil => simp [columnsHit]
  | cons c cs ih =>
    obtain ⟨hc, hcs⟩ := List.pairwise_cons.1 hcs
    obtain ⟨ih1, ih2⟩ := ih hcs (Blit.column row ox py b c)
    rw [columnsHit_cons, List.foldl_cons]
    by_cases hit : row.getLsbD (7 - c) = true ∧ (ox + c) % 64 = x.val ∧ py % 32 = y.val
    · have hno : ¬ columnsHit row ox py cs x y := by
        rintro ⟨d, hd, -, hx, -⟩
        exact hc d hd (hit.2.1.trans hx.symm)
      have := ih2 hno
      rw [Blit.pixel_column, if_pos hit] at this
      exact ⟨fun _ => this, fun h => absurd (Or.inl hit) h⟩
    · rw [Blit.pixel_column, if_neg hit] at ih1 ih2
      exact ⟨fun h => ih1 (h.resolve_left hit), fun h => ih2 fun h' => h (Or.inr h')⟩

/-- The latch after such columns: set before, or some hit cell was set before the row. -/
theorem Blit.collision_columns (row : Byte) (ox py : Nat) (cs : List Nat)
    (hcs : cs.Pairwise fun c d => (ox + c) % 64 ≠ (ox + d) % 64) (b : Blit) :
    (cs.foldl (Blit.column row ox py) b).collision = true ↔
      b.collision = true ∨ ∃ x y, columnsHit row ox py cs x y ∧ b.fb.pixel x y = true := by
  induction cs generalizing b with
  | nil => simp [columnsHit]
  | cons c cs ih =>
    obtain ⟨hc, hcs⟩ := List.pairwise_cons.1 hcs
    rw [List.foldl_cons, ih hcs, Blit.collision_column]
    have key : ∀ x y, columnsHit row ox py cs x y →
        (Blit.column row ox py b c).fb.pixel x y = b.fb.pixel x y := by
      rintro x y ⟨d, hd, -, hx, -⟩
      rw [Blit.pixel_column, if_neg]
      rintro ⟨-, hx', -⟩
      exact hc d hd (hx'.trans hx.symm)
    simp only [columnsHit_cons, Bool.or_eq_true, Bool.and_eq_true]
    constructor
    · rintro ((h | ⟨hb, hp⟩) | ⟨x, y, hit, hp⟩)
      · exact Or.inl h
      · exact Or.inr ⟨wrapX (ox + c), wrapY py, Or.inl ⟨hb, rfl, rfl⟩, hp⟩
      · exact Or.inr ⟨x, y, Or.inr hit, key x y hit ▸ hp⟩
    · rintro (h | ⟨x, y, (⟨hb, hx, hy⟩ | hit), hp⟩)
      · exact Or.inl (Or.inl h)
      · have h1 : x = wrapX (ox + c) := (wrapX_eq_iff _ _).2 hx
        have h2 : y = wrapY py := (wrapY_eq_iff _ _).2 hy
        exact Or.inl (Or.inr ⟨hb, h1 ▸ h2 ▸ hp⟩)
      · exact Or.inr ⟨x, y, hit, (key x y hit).trans hp⟩

theorem range8_distinct (ox : Nat) : (List.range 8).Pairwise fun c d => (ox + c) % 64 ≠ (ox + d) % 64 := by
  simp only [List.range, List.range.loop, List.pairwise_cons, List.Pairwise.nil, List.mem_cons, List.not_mem_nil,
    or_false, forall_eq_or_imp, forall_eq, IsEmpty.forall_iff, implies_true, and_true]
  omega

/-- A cell hit by a row of a sprite below another row is hit by no cell of that first row. -/
theorem covers_cons (row : Byte) (sprite : List Byte) (ox oy : Nat) (x : Fin 64) (y : Fin 32) :
    covers (row :: sprite) ox oy x y ↔
      columnsHit row ox oy (List.range 8) x y ∨ covers sprite ox (oy + 1) x y := by
  constructor
  · rintro ⟨c, r, hc, hr, hb, hx, hy⟩
    cases r with
    | zero => exact Or.inl ⟨c, List.mem_range.2 hc, by simpa using hb, hx, by simpa using hy⟩
    | succ r =>
      refine Or.inr ⟨c, r, hc, by simpa using hr, by simpa using hb, hx, ?_⟩
      rw [← hy]; congr 1; omega
  · rintro (⟨c, hc, hb, hx, hy⟩ | ⟨c, r, hc, hr, hb, hx, hy⟩)
    · exact ⟨c, 0, List.mem_range.1 hc, by simp, by simpa using hb, hx, by simpa using hy⟩
    · refine ⟨c, r + 1, hc, by simpa using hr, by simpa using hb, hx, ?_⟩
      rw [← hy]; congr 1; omega

theorem not_covers_below {sprite : List Byte} {ox oy : Nat} {x : Fin 64} {y : Fin 32} (hlen : sprite.length < 32)
    (hy : oy % 32 = y.val) : ¬ covers sprite ox (oy + 1) x y := by
  rintro ⟨c, r, -, hr, -, -, hy'⟩
  omega

/-- What a blit of at most 32 rows does to a cell: toggled exactly where the sprite covers it. -/
theorem Blit.pixel_rows (ox oy : Nat) (sprite : List Byte) (hlen : sprite.length ≤ 32) (b : Blit) (x : Fin 64) (y : Fin 32) :
    (covers sprite ox oy x y → (Blit.rows ox oy sprite b).fb.pixel x y = !b.fb.pixel x y) ∧
      (¬ covers sprite ox oy x y → (Blit.rows ox oy sprite b).fb.pixel x y = b.fb.pixel x y) := by
  induction sprite generalizing oy b with
  | nil => exact ⟨fun ⟨c, r, _, hr, _⟩ => by simp at hr, fun _ => rfl⟩
  | cons row sprite ih =>
    simp only [List.length_cons] at hlen
    obtain ⟨p1, p2⟩ := Blit.pixel_columns row ox oy _ (range8_distinct ox) b x y
    obtain ⟨ih1, ih2⟩ := ih (oy + 1) (by omega) (Blit.row row ox oy b)
    rw [covers_cons, Blit.rows]
    by_cases hit : columnsHit row ox oy (List.range 8) x y
    · have hno : ¬ covers sprite ox (oy + 1) x y := by
        obtain ⟨c, -, -, -, hy⟩ := hit
        exact not_covers_below (by omega) hy
      exact ⟨fun _ => (ih2 hno).trans (p1 hit), fun h => absurd (Or.inl hit) h⟩
    · refine ⟨fun h => (ih1 (h.resolve_left hit)).trans (congrArg _ (p2 hit)), fun h => ?_⟩
      exact (ih2 fun h' => h (Or.inr h')).trans (p2 hit)

/-- The latch after a blit of at most 32 rows: set before, or some covered cell was set before the blit. -/
theorem Blit.collision_rows (ox oy : Nat) (sprite : List Byte) (hlen : sprite.length ≤ 32) (b : Blit) :
    (Blit.rows ox oy sprite b).collision = true ↔
      b.collision = true ∨ ∃ x y, covers sprite ox oy x y ∧ b.fb.pixel x y = true := by
  induction sprite generalizing oy b with
  | nil =>
    refine ⟨Or.inl, ?_⟩
    rintro (h | ⟨x, y, ⟨c, r, -, hr, -⟩, -⟩)
    · exact h
    · simp at hr
  | cons row sprite ih =>
    simp only [List.length_cons] at hlen
    have key : ∀ x y, covers sprite ox (oy + 1) x y → (Blit.row row ox oy b).fb.pixel x y = b.fb.pixel x y := by
      intro x y hcov
      refine (Blit.pixel_columns row ox oy _ (range8_distinct ox) b x y).2 ?_
      rintro ⟨c, -, -, -, hy⟩
      exact not_covers_below (by omega) hy hcov
    have hrow := Blit.collision_columns row ox oy _ (range8_distinct ox) b
    rw [Blit.rows, ih (oy + 1) (by omega), show (Blit.row row ox oy b).collision = true ↔ _ from hrow]
    constructor
    · rintro ((h | ⟨x, y, hit, hp⟩) | ⟨x, y, hcov, hp⟩)
      · exact Or.inl h
      · exact Or.inr ⟨x, y, (covers_cons ..).2 (Or.inl hit), hp⟩
      · exact Or.inr ⟨x, y, (covers_cons ..).2 (Or.inr hcov), key x y hcov ▸ hp⟩
    · rintro (h | ⟨x, y, hcov, hp⟩)
      · exact Or.inl (Or.inl h)
      · rcases (covers_cons ..).1 hcov with hit | hcov
        · exact Or.inl (Or.inr ⟨x, y, hit, hp⟩)
        · exact Or.inr ⟨x, y, hcov, (key x y hcov).trans hp⟩

end Sys2Proof.Machine
end

