-- ==== Sys2Proof/Laws/Exec.lean ====
section
/-! SUPPORT. What exec answers, once: the instructions that can raise a fatal error as one conditional each, the PC arithmetic of the advance and the skips, and the two shapes every next state has. -/

namespace Sys2Proof.Machine

open Sys2Proof.Safety

/-- The default advance as a record update. -/
theorem State.advance_eq (s : State) : s.advance = { s with pc := s.pc + 2#16 } := by
  unfold State.advance State.setPc
  rw [trunc16_toNat_add]

/-- A skip as a record update. -/
theorem State.skipIf_eq_update (s : State) (c : Bool) :
    s.skipIf c = { s with pc := if c then s.pc + 4#16 else s.pc + 2#16 } := by
  rw [State.skipIf_eq, trunc16_toNat_add, trunc16_toNat_add]
  rfl

theorem exec_call_eq (nnn : Addr12) (s : State) :
    exec (.call nnn) s = .next (if s.stackFull then s.raiseFatal .stackOverflow (encode (.call nnn))
      else (s.setStack (s.stack ++ [s.pc])).setPc (zext16 nnn)) := by
  simp only [exec, execCall, State.push_eq]
  by_cases h : s.stackFull = true
  · rw [if_pos h, if_pos h]; rfl
  · rw [if_neg h, if_neg h]; rfl

theorem exec_ret_eq (s : State) :
    exec .ret s = .next (match s.stack.getLast? with
      | some a => (s.setStack s.stack.dropLast).setPc (trunc16 (a.toNat + 2))
      | none => s.raiseFatal .stackUnderflow (encode .ret)) := by
  simp only [exec, execRet, State.pop]
  cases s.stack.getLast? <;> rfl

theorem exec_ldBVx_eq (x : RegIdx) (s : State) :
    exec (.ldBVx x) s = .next (if s.base + 3 ≤ 0x1000 then (s.setMem (s.mem.fill s.base (bcdDigits (s.getV x)))).advance
      else s.raiseFatal (.memoryOutOfRange (firstBeyond s.base)) (encode (.ldBVx x))) := by
  have hl : (bcdDigits (s.getV x)).length = 3 := rfl
  simp only [exec, execLdBVx, State.writeBlock_eq, hl]
  by_cases h : s.base + 3 ≤ 0x1000
  · rw [if_pos (Or.inr h), if_pos h]; rfl
  · rw [if_neg (by omega), if_neg h]; rfl

theorem exec_ldMemVx_eq (x : RegIdx) (s : State) :
    exec (.ldMemVx x) s = .next (if s.base + x.val < 0x1000 then (s.setMem (s.mem.fill s.base (s.dumpRegs x))).advance
      else s.raiseFatal (.memoryOutOfRange (firstBeyond s.base)) (encode (.ldMemVx x))) := by
  simp only [exec, execLdMemVx, State.writeBlock_eq, State.length_dumpRegs]
  by_cases h : s.base + x.val < 0x1000
  · rw [if_pos (by omega), if_pos h]; rfl
  · rw [if_neg (by omega), if_neg h]; rfl

theorem exec_ldVxMem_eq (x : RegIdx) (s : State) :
    exec (.ldVxMem x) s = .next (if s.base + x.val < 0x1000 then (s.loadRegs 0 (bytesAt s.mem s.base (x.val + 1))).advance
      else s.raiseFatal (.memoryOutOfRange (firstBeyond s.base)) (encode (.ldVxMem x))) := by
  simp only [exec, execLdVxMem, State.readBlock_eq]
  by_cases h : s.base + x.val < 0x1000
  · rw [if_pos (by omega), if_pos h]; rfl
  · rw [if_neg (by omega), if_neg h]; rfl

theorem exec_drw_eq (x y : RegIdx) (n : Nibble) (s : State) :
    exec (.drw x y n) s = .next (if n = 0#4 ∨ s.base + n.toNat ≤ 0x1000 then
        s.drawn (blit s.fb (s.getV x).toNat (s.getV y).toNat (bytesAt s.mem s.base n.toNat))
      else s.raiseFatal (.memoryOutOfRange (firstBeyond s.base)) (encode (.drw x y n))) := by
  have hn : n = 0#4 ↔ n.toNat = 0 := ⟨fun h => by rw [h]; rfl, fun h => BitVec.eq_of_toNat_eq h⟩
  simp only [exec, execDrw, State.readBlock_eq, hn]
  by_cases h : n.toNat = 0 ∨ s.base + n.toNat ≤ 0x1000
  · rw [if_pos h, if_pos h]; rfl
  · rw [if_neg h, if_neg h]; rfl

/-- A drawn blit changes VF, the framebuffer and PC. -/
theorem State.drawn_frame (s : State) (b : Blit) :
    s.drawn b = { s with v := (s.drawn b).v, fb := b.fb, pc := s.pc + 2#16 } := by
  unfold State.drawn
  rw [State.advance_eq]
  rfl

/-- Every answer of exec is a next state of one of two shapes: the halted state of a fatal error, or a state that differs from
the old one in the core's program-visible state alone. -/
theorem exec_shapes (i : Instr) (s : State) :
    (∃ f, exec i s = .next (s.raiseFatal f (encode i))) ∨
      ∃ t, exec i s = .next t ∧ t = { s with
        v := t.v, i := t.i, pc := t.pc, stack := t.stack, dt := t.dt, st := t.st, fb := t.fb, mem := t.mem } := by
  cases i with
  | call nnn =>
    rw [exec_call_eq]; split
    · exact Or.inl ⟨_, rfl⟩
    · exact Or.inr ⟨_, rfl, rfl⟩
  | ret =>
    rw [exec_ret_eq]; split
    · exact Or.inr ⟨_, rfl, rfl⟩
    · exact Or.inl ⟨_, rfl⟩
  | ldBVx x =>
    rw [exec_ldBVx_eq]; split
    · exact Or.inr ⟨_, rfl, rfl⟩
    · exact Or.inl ⟨_, rfl⟩
  | ldMemVx x =>
    rw [exec_ldMemVx_eq]; split
    · exact Or.inr ⟨_, rfl, rfl⟩
    · exact Or.inl ⟨_, rfl⟩
  | ldVxMem x =>
    rw [exec_ldVxMem_eq]; split
    · refine Or.inr ⟨_, rfl, ?_⟩
      rw [State.loadRegs_frame]; rfl
    · exact Or.inl ⟨_, rfl⟩
  | drw x y n =>
    rw [exec_drw_eq]; split
    · exact Or.inr ⟨_, rfl, rfl⟩
    · exact Or.inl ⟨_, rfl⟩
  | sys nnn => exact Or.inl ⟨_, rfl⟩
  | unknown op => exact Or.inl ⟨_, rfl⟩
  | seVxKk x kk => exact Or.inr ⟨_, rfl, by rw [State.skipIf_eq]; rfl⟩
  | sneVxKk x kk => exact Or.inr ⟨_, rfl, by rw [State.skipIf_eq]; rfl⟩
  | seVxVy x y n => exact Or.inr ⟨_, rfl, by rw [State.skipIf_eq]; rfl⟩
  | sneVxVy x y n => exact Or.inr ⟨_, rfl, by rw [State.skipIf_eq]; rfl⟩
  | skp x => exact Or.inr ⟨_, rfl, by rw [State.skipIf_eq]; rfl⟩
  | sknp x => exact Or.inr ⟨_, rfl, by rw [State.skipIf_eq]; rfl⟩
  | ldVxK x =>
    refine Or.inr ⟨_, rfl, ?_⟩
    split <;> rfl
  | _ => exact Or.inr ⟨_, rfl, rfl⟩

end Sys2Proof.Machine
end

