-- ==== Sys2Proof/Laws/PerInstr.lean ====
section
/-! SUPPORT. The per-instruction family EncodeSelectsRow: the encoded word carries the fixed bits of the instruction's row of the opcode map (30_encoding.md R85). -/

namespace Sys2Proof.Laws.EncodeSelectsRow

/-- The encoded word has category `c`. -/
def Category (c : Nibble) (i : Instr) : Prop := fieldC (encode i) = c

/-- The fixed bits of an instruction's row: the category, and the secondary field where the row has one (R74–R78). A SYS has
category 0x0 and its own low bits; an `unknown` word is any word. -/
def Statement : Instr → Prop
  | .cls => encode .cls = 0x00E0#16
  | .ret => encode .ret = 0x00EE#16
  | .jp nnn => Category 0x1#4 (.jp nnn)
  | .call nnn => Category 0x2#4 (.call nnn)
  | .seVxKk x kk => Category 0x3#4 (.seVxKk x kk)
  | .sneVxKk x kk => Category 0x4#4 (.sneVxKk x kk)
  | .seVxVy x y n => Category 0x5#4 (.seVxVy x y n)
  | .ldVxKk x kk => Category 0x6#4 (.ldVxKk x kk)
  | .addVxKk x kk => Category 0x7#4 (.addVxKk x kk)
  | .or x y => Category 0x8#4 (.or x y) ∧ fieldN (encode (.or x y)) = 0x1#4
  | .and x y => Category 0x8#4 (.and x y) ∧ fieldN (encode (.and x y)) = 0x2#4
  | .xor x y => Category 0x8#4 (.xor x y) ∧ fieldN (encode (.xor x y)) = 0x3#4
  | .addVxVy x y => Category 0x8#4 (.addVxVy x y) ∧ fieldN (encode (.addVxVy x y)) = 0x4#4
  | .sub x y => Category 0x8#4 (.sub x y) ∧ fieldN (encode (.sub x y)) = 0x5#4
  | .shr x y => Category 0x8#4 (.shr x y) ∧ fieldN (encode (.shr x y)) = 0x6#4
  | .subn x y => Category 0x8#4 (.subn x y) ∧ fieldN (encode (.subn x y)) = 0x7#4
  | .shl x y => Category 0x8#4 (.shl x y) ∧ fieldN (encode (.shl x y)) = 0xE#4
  | .ldVxVy x y => Category 0x8#4 (.ldVxVy x y) ∧ fieldN (encode (.ldVxVy x y)) = 0x0#4
  | .sneVxVy x y n => Category 0x9#4 (.sneVxVy x y n)
  | .ldI nnn => Category 0xA#4 (.ldI nnn)
  | .jpV0 nnn => Category 0xB#4 (.jpV0 nnn)
  | .rnd x kk => Category 0xC#4 (.rnd x kk)
  | .drw x y n => Category 0xD#4 (.drw x y n)
  | .skp x => Category 0xE#4 (.skp x) ∧ fieldKk (encode (.skp x)) = 0x9E#8
  | .sknp x => Category 0xE#4 (.sknp x) ∧ fieldKk (encode (.sknp x)) = 0xA1#8
  | .ldVxDt x => Category 0xF#4 (.ldVxDt x) ∧ fieldKk (encode (.ldVxDt x)) = 0x07#8
  | .ldDtVx x => Category 0xF#4 (.ldDtVx x) ∧ fieldKk (encode (.ldDtVx x)) = 0x15#8
  | .ldStVx x => Category 0xF#4 (.ldStVx x) ∧ fieldKk (encode (.ldStVx x)) = 0x18#8
  | .ldVxK x => Category 0xF#4 (.ldVxK x) ∧ fieldKk (encode (.ldVxK x)) = 0x0A#8
  | .addIVx x => Category 0xF#4 (.addIVx x) ∧ fieldKk (encode (.addIVx x)) = 0x1E#8
  | .ldFVx x => Category 0xF#4 (.ldFVx x) ∧ fieldKk (encode (.ldFVx x)) = 0x29#8
  | .ldBVx x => Category 0xF#4 (.ldBVx x) ∧ fieldKk (encode (.ldBVx x)) = 0x33#8
  | .ldMemVx x => Category 0xF#4 (.ldMemVx x) ∧ fieldKk (encode (.ldMemVx x)) = 0x55#8
  | .ldVxMem x => Category 0xF#4 (.ldVxMem x) ∧ fieldKk (encode (.ldVxMem x)) = 0x65#8
  | .sys nnn => Category 0x0#4 (.sys nnn) ∧ fieldNnn (encode (.sys nnn)) = nnn
  | .unknown op => encode (.unknown op) = op

theorem cls : Statement .cls := rfl

theorem ret : Statement .ret := rfl

theorem jp (nnn : Addr12) : Statement (.jp nnn) := by simp [Statement, Category, encode]

theorem call (nnn : Addr12) : Statement (.call nnn) := by simp [Statement, Category, encode]

theorem seVxKk (x : RegIdx) (kk : Byte) : Statement (.seVxKk x kk) := by simp [Statement, Category, encode]

theorem sneVxKk (x : RegIdx) (kk : Byte) : Statement (.sneVxKk x kk) := by simp [Statement, Category, encode]

theorem seVxVy (x y : RegIdx) (n : Nibble) : Statement (.seVxVy x y n) := by simp [Statement, Category, encode]

theorem ldVxKk (x : RegIdx) (kk : Byte) : Statement (.ldVxKk x kk) := by simp [Statement, Category, encode]

theorem addVxKk (x : RegIdx) (kk : Byte) : Statement (.addVxKk x kk) := by simp [Statement, Category, encode]

theorem or (x y : RegIdx) : Statement (.or x y) := by simp [Statement, Category, encode]

theorem and (x y : RegIdx) : Statement (.and x y) := by simp [Statement, Category, encode]

theorem xor (x y : RegIdx) : Statement (.xor x y) := by simp [Statement, Category, encode]

theorem addVxVy (x y : RegIdx) : Statement (.addVxVy x y) := by simp [Statement, Category, encode]

theorem sub (x y : RegIdx) : Statement (.sub x y) := by simp [Statement, Category, encode]

theorem shr (x y : RegIdx) : Statement (.shr x y) := by simp [Statement, Category, encode]

theorem subn (x y : RegIdx) : Statement (.subn x y) := by simp [Statement, Category, encode]

theorem shl (x y : RegIdx) : Statement (.shl x y) := by simp [Statement, Category, encode]

theorem ldVxVy (x y : RegIdx) : Statement (.ldVxVy x y) := by simp [Statement, Category, encode]

theorem sneVxVy (x y : RegIdx) (n : Nibble) : Statement (.sneVxVy x y n) := by simp [Statement, Category, encode]

theorem ldI (nnn : Addr12) : Statement (.ldI nnn) := by simp [Statement, Category, encode]

theorem jpV0 (nnn : Addr12) : Statement (.jpV0 nnn) := by simp [Statement, Category, encode]

theorem rnd (x : RegIdx) (kk : Byte) : Statement (.rnd x kk) := by simp [Statement, Category, encode]

theorem drw (x y : RegIdx) (n : Nibble) : Statement (.drw x y n) := by simp [Statement, Category, encode]

theorem skp (x : RegIdx) : Statement (.skp x) := by simp [Statement, Category, encode]

theorem sknp (x : RegIdx) : Statement (.sknp x) := by simp [Statement, Category, encode]

theorem ldVxDt (x : RegIdx) : Statement (.ldVxDt x) := by simp [Statement, Category, encode]

theorem ldDtVx (x : RegIdx) : Statement (.ldDtVx x) := by simp [Statement, Category, encode]

theorem ldStVx (x : RegIdx) : Statement (.ldStVx x) := by simp [Statement, Category, encode]

theorem ldVxK (x : RegIdx) : Statement (.ldVxK x) := by simp [Statement, Category, encode]

theorem addIVx (x : RegIdx) : Statement (.addIVx x) := by simp [Statement, Category, encode]

theorem ldFVx (x : RegIdx) : Statement (.ldFVx x) := by simp [Statement, Category, encode]

theorem ldBVx (x : RegIdx) : Statement (.ldBVx x) := by simp [Statement, Category, encode]

theorem ldMemVx (x : RegIdx) : Statement (.ldMemVx x) := by simp [Statement, Category, encode]

theorem ldVxMem (x : RegIdx) : Statement (.ldVxMem x) := by simp [Statement, Category, encode]

theorem sys (nnn : Addr12) : Statement (.sys nnn) := by simp [Statement, Category, encode]

theorem unknown (op : Word) : Statement (.unknown op) := rfl

end Sys2Proof.Laws.EncodeSelectsRow
end

