-- ==== Sys2Proof/Tests/Slice0.lean ====
section
/-! SUPPORT. Tests from the spec's own vectors (95_test_vectors.md), the smoke test of well-formedness, and for every statement with hypotheses a witness that meets them. -/

namespace Sys2Proof.Tests

open Sys2Proof.Machine Sys2Proof.Safety

/-! Helpers. -/

/-- The next state, where there is one. -/
def nextOf : Answer → Option State
  | .next t => some t
  | .fault _ => none
  | .refused _ => none

/-- The reset state with some registers set. -/
def start (regs : List (RegIdx × Byte)) : State := regs.foldl (fun s r => s.setV r.1 r.2) State.reset

/-- No key pressed. -/
def noKey : KeySample := { code := 0x0#4, pressed := false }

/-- One step on `s` with the word `op` stored at its PC, under the given inputs. -/
def runWord (s : State) (op : Nat) (key : KeySample := noKey) (rand : Byte := 0x00#8) : Option State :=
  nextOf (step { s.withFetchWord 16 op with schedule := [.cpu key rand] })

/-- The set cells of a framebuffer, as (x, y), row by row. -/
def litCells (fb : Framebuffer) : List (Nat × Nat) :=
  (List.finRange 32).flatMap fun y => ((List.finRange 64).filter fun x => fb.pixel x y).map fun x => (x.val, y.val)

/-- The diagnostic: HALTED, FATAL_CAUSE, FATAL_OPCODE, FATAL_PC, FATAL_ADDR. -/
def diagnostic (s : State) : Bool × BitVec 3 × Word × Word × Word :=
  (s.halted, s.fatalCause, s.fatalOpcode, s.fatalPc, s.fatalAddr)

/-! Well-formedness: each check refuses an ill-formed term (30_encoding.md R85, R74). -/

theorem test_wf_refuses_sys_that_is_cls : (Instr.sys 0x0E0#12).wf = false := by decide
theorem test_wf_refuses_sys_that_is_ret : (Instr.sys 0x0EE#12).wf = false := by decide
theorem test_wf_refuses_unknown_that_is_add : (Instr.unknown 0x8014#16).wf = false := by decide
theorem test_wf_refuses_unknown_that_is_sys : (Instr.unknown 0x0123#16).wf = false := by decide
theorem test_wf_accepts_sys : (Instr.sys 0x123#12).wf = true := by decide
theorem test_wf_accepts_unknown : (Instr.unknown 0xE5A2#16).wf = true := by decide

/-! Decoding, one word per constructor, written out from the patterns of R85; the words of 95_test_vectors.md where it has one. -/

theorem test_decode_categories_0_to_7 :
    decodeWord 0x00E0#16 = .cls ∧ decodeWord 0x00EE#16 = .ret ∧ decodeWord 0x1ABC#16 = .jp 0xABC#12 ∧
    decodeWord 0x2300#16 = .call 0x300#12 ∧ decodeWord 0x3342#16 = .seVxKk 3 0x42#8 ∧
    decodeWord 0x4300#16 = .sneVxKk 3 0x00#8 ∧ decodeWord 0x5121#16 = .seVxVy 1 2 0x1#4 ∧
    decodeWord 0x62AB#16 = .ldVxKk 2 0xAB#8 ∧ decodeWord 0x7202#16 = .addVxKk 2 0x02#8 := by decide

theorem test_decode_category_8 :
    decodeWord 0x8011#16 = .or 0 1 ∧ decodeWord 0x8012#16 = .and 0 1 ∧ decodeWord 0x8443#16 = .xor 4 4 ∧
    decodeWord 0x8F14#16 = .addVxVy 15 1 ∧ decodeWord 0x80F5#16 = .sub 0 15 ∧ decodeWord 0x8AB6#16 = .shr 10 11 ∧
    decodeWord 0x8017#16 = .subn 0 1 ∧ decodeWord 0x8ABE#16 = .shl 10 11 ∧ decodeWord 0x83F0#16 = .ldVxVy 3 15 := by decide

theorem test_decode_categories_9_to_E :
    decodeWord 0x912F#16 = .sneVxVy 1 2 0xF#4 ∧ decodeWord 0xA22A#16 = .ldI 0x22A#12 ∧
    decodeWord 0xB300#16 = .jpV0 0x300#12 ∧ decodeWord 0xC30F#16 = .rnd 3 0x0F#8 ∧
    decodeWord 0xD01F#16 = .drw 0 1 0xF#4 ∧ decodeWord 0xE59E#16 = .skp 5 ∧ decodeWord 0xE5A1#16 = .sknp 5 := by decide

theorem test_decode_category_F :
    decodeWord 0xF407#16 = .ldVxDt 4 ∧ decodeWord 0xF415#16 = .ldDtVx 4 ∧ decodeWord 0xF418#16 = .ldStVx 4 ∧
    decodeWord 0xF10A#16 = .ldVxK 1 ∧ decodeWord 0xF21E#16 = .addIVx 2 ∧ decodeWord 0xF129#16 = .ldFVx 1 ∧
    decodeWord 0xFB33#16 = .ldBVx 11 ∧ decodeWord 0xF255#16 = .ldMemVx 2 ∧ decodeWord 0xFF65#16 = .ldVxMem 15 := by decide

theorem test_decode_unknown_words :
    decodeWord 0x0000#16 = .sys 0x000#12 ∧ decodeWord 0x01E0#16 = .sys 0x1E0#12 ∧ decodeWord 0x0123#16 = .sys 0x123#12 ∧
    decodeWord 0x8008#16 = .unknown 0x8008#16 ∧ decodeWord 0x800F#16 = .unknown 0x800F#16 ∧
    decodeWord 0xE5A2#16 = .unknown 0xE5A2#16 ∧ decodeWord 0xF100#16 = .unknown 0xF100#16 := by decide

/-- The outputs of DEC on two rows of 95_test_vectors.md §2.1. -/
theorem test_dec_outputs :
    dec 0x8AB6#16 = ⟨.shr, 0xA, 0xB, 0x6#4, 0xB6#8, 0xAB6#12⟩ ∧
    dec 0x01E0#16 = ⟨.unknown, 0x1, 0xE, 0x0#4, 0xE0#8, 0x1E0#12⟩ := by decide

/-- R53: the high byte stands first; fewer than two bytes are refused by name. -/
theorem test_decode_bytes :
    decode [0xA2, 0x2A, 0x99] = .ok (.ldI 0x22A#12, [0x99]) ∧ decode [0xA2] = .error (.truncated 1) ∧
    decode [] = .error (.truncated 0) ∧ encodeBytes (.ldI 0x22A#12) = [0xA2, 0x2A] ∧
    decodeTableWord 16 0xA22A = some (.ldI 0x22A#12) := ⟨rfl, rfl, rfl, by decide, by decide⟩

/-! Control transfer (95_test_vectors.md §1, §2.2). -/

theorem test_ret : (runWord { State.reset with pc := 0x300#16, stack := [0x200#16] } 0x00EE).map (fun t => (t.pc, t.stack)) =
    some (0x202#16, []) := by decide
theorem test_ret_underflow : (runWord State.reset 0x00EE).map (fun t => (diagnostic t, t.pc)) =
    some ((true, 2#3, 0x00EE#16, 0x200#16, 0#16), 0x200#16) := by decide
theorem test_jp : (runWord State.reset 0x1234).map (·.pc) = some 0x234#16 := by decide
theorem test_call : (runWord State.reset 0x2300).map (fun t => (t.pc, t.stack)) = some (0x300#16, [0x200#16]) := by decide
theorem test_call_overflow :
    (runWord { State.reset with stackDepth := some 1, stack := [0x200#16] } 0x2400).map (fun t => (diagnostic t, t.stack)) =
    some ((true, 3#3, 0x2400#16, 0x200#16, 0#16), [0x200#16]) := by decide
theorem test_se_immediate :
    (runWord (start [(3, 0x42)]) 0x3342).map (·.pc) = some 0x204#16 ∧
    (runWord (start [(3, 0x42)]) 0x3343).map (·.pc) = some 0x202#16 := by decide
theorem test_sne_immediate :
    (runWord (start [(3, 0x42)]) 0x4342).map (·.pc) = some 0x202#16 ∧
    (runWord (start [(3, 0x42)]) 0x4300).map (·.pc) = some 0x204#16 := by decide
theorem test_se_registers :
    (runWord (start [(1, 7), (2, 7)]) 0x5127).map (·.pc) = some 0x204#16 ∧
    (runWord (start [(1, 7), (2, 8)]) 0x5120).map (·.pc) = some 0x202#16 := by decide
theorem test_sne_registers :
    (runWord (start [(1, 7), (2, 8)]) 0x9120).map (·.pc) = some 0x204#16 ∧
    (runWord (start [(1, 7), (2, 8)]) 0x9110).map (·.pc) = some 0x202#16 := by decide
theorem test_jp_v0 : (runWord (start [(0, 0xFF)]) 0xBFFF).map (·.pc) = some 0x10FE#16 := by decide
theorem test_sys : (runWord State.reset 0x0123).map diagnostic = some (true, 1#3, 0x0123#16, 0x200#16, 0#16) := by decide
theorem test_unknown : (runWord State.reset 0xFFFF).map diagnostic = some (true, 1#3, 0xFFFF#16, 0x200#16, 0#16) := by decide

/-- 0x1FFF leads here: the fetch at 0xFFF reaches 0x1000 (§2.2). -/
theorem test_fetch_beyond_memory :
    (nextOf (step { State.reset with pc := 0xFFF#16, schedule := [.cpu noKey 0] })).map diagnostic =
    some (true, 4#3, 0#16, 0xFFF#16, 0x1000#16) := by decide

/-! Load and ALU (§1, §2.3). -/

theorem test_ld_immediate : (runWord State.reset 0x62AB).map (·.getV 2) = some 0xAB#8 := by decide
theorem test_add_immediate_wraps : (runWord (start [(2, 0xFF), (15, 0x55)]) 0x7202).map (fun t => (t.getV 2, t.getV 15)) =
    some (0x01#8, 0x55#8) := by decide
theorem test_or : (runWord (start [(0, 0xF0), (1, 0x0F), (15, 0x77)]) 0x8011).map (fun t => (t.getV 0, t.getV 15)) =
    some (0xFF#8, 0x77#8) := by decide
theorem test_and : (runWord (start [(0, 0xF0), (1, 0x3C)]) 0x8012).map (·.getV 0) = some 0x30#8 := by decide
theorem test_xor_same_register : (runWord (start [(4, 0x99)]) 0x8443).map (·.getV 4) = some 0x00#8 := by decide
theorem test_add_carry : (runWord (start [(0, 0xC8), (1, 0x64)]) 0x8014).map (fun t => (t.getV 0, t.getV 15)) =
    some (0x2C#8, 0x01#8) := by decide
theorem test_add_to_vf : (runWord (start [(15, 0x10), (1, 0x01)]) 0x8F14).map (·.getV 15) = some 0x00#8 := by decide
theorem test_sub_equal : (runWord (start [(0, 5), (1, 5), (15, 1)]) 0x8015).map (fun t => (t.getV 0, t.getV 15)) =
    some (0x00#8, 0x00#8) := by decide
theorem test_sub_reads_old_vf : (runWord (start [(0, 5), (15, 1)]) 0x80F5).map (fun t => (t.getV 0, t.getV 15)) =
    some (0x04#8, 0x01#8) := by decide
theorem test_shr_ignores_y : (runWord (start [(0, 0x80), (1, 0xFF)]) 0x8016).map (fun t => (t.getV 0, t.getV 15)) =
    some (0x40#8, 0x00#8) := by decide
theorem test_shr_of_vf : (runWord (start [(15, 0x03)]) 0x8FF6).map (·.getV 15) = some 0x01#8 := by decide
theorem test_subn : (runWord (start [(0, 3), (1, 5)]) 0x8017).map (fun t => (t.getV 0, t.getV 15)) =
    some (0x02#8, 0x01#8) := by decide
theorem test_subn_borrows : (runWord (start [(0, 5), (1, 3), (15, 1)]) 0x8017).map (fun t => (t.getV 0, t.getV 15)) =
    some (0xFE#8, 0x00#8) := by decide
theorem test_shl : (runWord (start [(0, 0xFF)]) 0x800E).map (fun t => (t.getV 0, t.getV 15)) =
    some (0xFE#8, 0x01#8) := by decide
theorem test_shl_of_vf : (runWord (start [(15, 0x40)]) 0x8FFE).map (·.getV 15) = some 0x00#8 := by decide
theorem test_copy : (runWord (start [(1, 0x42), (15, 0x09)]) 0x8010).map (fun t => (t.getV 0, t.getV 15)) =
    some (0x42#8, 0x09#8) := by decide

/-! The address register and memory (§2.4). -/

theorem test_ld_i : (runWord State.reset 0xA22A).map (·.i) = some 0x022A#16 := by decide
theorem test_add_i_wraps : (runWord { start [(0, 2), (15, 9)] with i := 0xFFFF#16 } 0xF01E).map (fun t => (t.i, t.getV 15)) =
    some (0x0001#16, 0x09#8) := by decide
theorem test_font_address : (runWord (start [(3, 0xFF)]) 0xF329).map (·.i) = some 0x04FB#16 := by decide
theorem test_bcd : (runWord { start [(0, 254)] with i := 0x300#16 } 0xF033).map
    (fun t => (t.mem.read 0x300, t.mem.read 0x301, t.mem.read 0x302)) = some (0x02#8, 0x05#8, 0x04#8) := by decide
theorem test_bcd_beyond_memory : (runWord { start [(0, 255)] with i := 0xFFE#16 } 0xF033).map
    (fun t => (t.fatalAddr, t.mem.read 0xFFE, t.mem.read 0xFFF)) = some (0x1000#16, 0x00#8, 0x00#8) := by decide
theorem test_dump : (runWord { start [(0, 1), (1, 2), (2, 3), (3, 4)] with i := 0x300#16 } 0xF255).map
    (fun t => (t.mem.read 0x300, t.mem.read 0x301, t.mem.read 0x302, t.mem.read 0x303, t.i)) =
    some (0x01#8, 0x02#8, 0x03#8, 0x00#8, 0x300#16) := by decide
theorem test_dump_beyond_memory : (runWord { start [(0, 7)] with i := 0xFF8#16 } 0xFF55).map
    (fun t => (t.fatalCause, t.fatalAddr, t.mem.read 0xFF8)) = some (4#3, 0x1000#16, 0x00#8) := by decide
theorem test_register_load :
    (runWord { start [(3, 9)] with i := 0x300#16, mem := [(0x301, 1), (0x302, 5), (0x303, 7)] } 0xF265).map
    (fun t => (t.getV 0, t.getV 1, t.getV 2, t.getV 3, t.i)) = some (0x00#8, 0x01#8, 0x05#8, 0x09#8, 0x300#16) := by decide

/-! The display (§2.5). -/

theorem test_cls : (runWord { start [(15, 0x77)] with fb := Vector.replicate 32 (Vector.replicate 64 true) } 0x00E0).map
    (fun t => (litCells t.fb, t.getV 15)) = some ([], 0x77#8) := by decide +kernel
theorem test_drw_wraps_per_pixel :
    (runWord { start [(0, 62), (1, 31), (15, 1)] with i := 0x300#16, mem := [(0x300, 0xC3), (0x301, 0x81)] } 0xD012).map
    (fun t => (litCells t.fb, t.getV 15)) =
    some ([(5, 0), (62, 0), (4, 31), (5, 31), (62, 31), (63, 31)], 0x00#8) := by decide +kernel
theorem test_drw_collides :
    (runWord { State.reset with i := 0x300#16, mem := [(0x300, 0xF0)], fb := State.reset.fb.setPixel 3 0 } 0xD011).map
    (fun t => (litCells t.fb, t.getV 15)) = some ([(0, 0), (1, 0), (2, 0)], 0x01#8) := by decide +kernel

/-! Inputs and timers (§2.6). -/

theorem test_rnd : (runWord State.reset 0xC30F noKey 0xB7).map (·.getV 3) = some 0x07#8 := by decide
theorem test_skp_low_nibble : (runWord (start [(5, 0x1A)]) 0xE59E ⟨0xA, true⟩).map (·.pc) = some 0x204#16 := by decide
theorem test_skp_not_pressed : (runWord (start [(5, 0x0A)]) 0xE59E ⟨0xA, false⟩).map (·.pc) = some 0x202#16 := by decide
theorem test_sknp_pressed : (runWord (start [(5, 0x0A)]) 0xE5A1 ⟨0xA, true⟩).map (·.pc) = some 0x202#16 := by decide
theorem test_sknp_other_key : (runWord (start [(5, 0x0A)]) 0xE5A1 ⟨0xB, true⟩).map (·.pc) = some 0x204#16 := by decide
theorem test_ld_dt : (runWord { State.reset with dt := 0x3C#8 } 0xF407).map (·.getV 4) = some 0x3C#8 := by decide
theorem test_set_dt : (runWord (start [(4, 0x3C)]) 0xF415).map (·.dt) = some 0x3C#8 := by decide
theorem test_set_st : (runWord (start [(4, 0x02)]) 0xF418).map (·.st) = some 0x02#8 := by decide
theorem test_wait_no_key : (runWord (start [(1, 0x55)]) 0xF10A ⟨0x7, false⟩).map (fun t => (t.pc, t.getV 1)) =
    some (0x200#16, 0x55#8) := by decide
theorem test_wait_key : (runWord (start [(1, 0x55)]) 0xF10A ⟨0x7, true⟩).map (fun t => (t.pc, t.getV 1)) =
    some (0x202#16, 0x07#8) := by decide

/-- One timer tick at DT = 3, ST = 2, then at DT = 0, ST = 1 (R275, R276). -/
theorem test_timer_tick :
    (nextOf (step { State.reset with dt := 3#8, st := 2#8, schedule := [.timer] })).map (fun t => (t.dt, t.st, t.outputs)) =
      some (2#8, 1#8, []) ∧
    (nextOf (step { State.reset with st := 1#8, schedule := [.timer] })).map (fun t => (t.dt, t.st, t.outputs)) =
      some (0#8, 0#8, [.beep]) := by decide

/-- A halted core's timers stand still (§2.6). -/
theorem test_timer_tick_halted :
    (nextOf (step { State.reset with halted := true, dt := 5#8, schedule := [.timer] })).map (·.dt) = some 5#8 := by decide

/-- Glyph 0 and glyph F of the default font, where LD F finds them (G4, R173). -/
theorem test_font_bytes :
    bytesAt State.reset.mem 0x00 5 = [0xF0, 0x90, 0x90, 0x90, 0xF0] ∧
    bytesAt State.reset.mem 0x4B 5 = [0xF0, 0x80, 0xF0, 0x80, 0x80] ∧ State.reset.mem.read 0x50 = 0 := by decide

/-- A load of P1's first word (95_test_vectors.md §3), under a font of ones. -/
theorem test_load :
    (nextOf (State.reset.load (Vector.replicate 80 0x01#8) [0x60, 0x05])).map
      (fun t => (t.pc, t.mem.read 0x000, t.mem.read 0x04F, t.mem.read 0x050, t.fetch.toOption)) =
    some (0x200#16, 0x01#8, 0x01#8, 0x00#8, some 0x6005#16) := by decide +kernel

/-! Witnesses: for each statement with hypotheses, concrete data that meet them all, at the boundary of each clause. -/

theorem witness_DecodeEncodeRoundTrip :
    Instr.cls.wf = true ∧ (Instr.drw 15 15 0xF#4).wf = true ∧ (Instr.sys 0x0E1#12).wf = true ∧
    (Instr.unknown 0xFFFF#16).wf = true := by decide

/-- The last whole word of memory, under a scheduled strobe. -/
def lastWord : State :=
  { State.reset with pc := 0xFFE#16, mem := [(0xFFF, 0xE0)], schedule := [.cpu noKey 0x5A, .timer] }

theorem witness_StepRunsDecodedInstruction :
    lastWord.halted = false ∧ lastWord.nextTick = .cpu noKey 0x5A ∧ lastWord.pc.toNat + 1 < 0x1000 ∧
    decode [lastWord.mem.read lastWord.pc.toNat, lastWord.mem.read (lastWord.pc.toNat + 1)] = .ok (.cls, []) :=
  ⟨rfl, rfl, by decide, rfl⟩

/-- The same from reset, on free inputs: empty memory is SYS 000. -/
theorem witness_StepRunsDecodedInstruction_free :
    State.reset.halted = false ∧ State.reset.nextTick = .cpu (Config.freeKey 0) (Config.freeRand 0) ∧
    State.reset.pc.toNat + 1 < 0x1000 ∧
    decode [State.reset.mem.read State.reset.pc.toNat, State.reset.mem.read (State.reset.pc.toNat + 1)] =
      .ok (.sys 0x000#12, []) := ⟨rfl, rfl, by decide, rfl⟩

theorem witness_StrobesComeInOrder :
    lastWord.halted = false ∧ lastWord.schedule = [.cpu noKey 0x5A, .timer] ∧
    State.reset.halted = false ∧ State.reset.schedule = [] := ⟨rfl, rfl, rfl, rfl⟩

/-- A running core with PC at `pc` and one CPU tick to come. -/
def fetchAt (pc : Word) : State := { State.reset with pc := pc, schedule := [.cpu noKey 0] }

theorem witness_FetchBeyondMemoryHalts (pc : Word) (h : pc = 0xFFF#16 ∨ pc = 0x1000#16 ∨ pc = 0x10FE#16) :
    (fetchAt pc).halted = false ∧ (fetchAt pc).nextTick = .cpu noKey 0 ∧ 0x1000 ≤ (fetchAt pc).pc.toNat + 1 := by
  refine ⟨rfl, rfl, ?_⟩
  rcases h with rfl | rfl | rfl <;> decide

theorem witness_HaltedCoreStaysAsItIs : (State.reset.raiseFatal .unknownOpcode 0x0123#16).halted = true := rfl

/-- A state inside a subroutine, its stack full and its memory not empty, with a RET at PC. -/
def inside : State :=
  { State.reset with pc := 0x300#16, stack := [0x200#16], stackDepth := some 1, mem := [(0x301, 0xEE)]
                     schedule := [.cpu noKey 0] }

theorem witness_StepKeepsInv : ∃ t, Inv inside ∧ step inside = .next t ∧ t.pc = 0x202#16 := by
  refine ⟨_, ⟨by decide, ?_, ?_, by decide, by decide, by decide⟩, rfl, by decide⟩
  · intro depth h
    cases h
    decide
  · intro a h
    rw [List.mem_singleton.mp h]
    decide

/-- A halted state meets the invariant as well. -/
theorem witness_StepKeepsInv_halted : Inv (State.reset.raiseFatal (.memoryOutOfRange 0x1000) 0#16) := by
  refine ⟨by decide, ?_, ?_, by decide, by decide, by decide⟩
  · intro depth h
    cases h
  · intro a h
    cases h

theorem witness_LoadPlacesFontAndImage : (List.replicate 3584 0xFF#8).length ≤ 3584 := by
  rw [List.length_replicate]
theorem witness_LoadRefusesOversizedImage : 3584 < (List.replicate 3585 0xFF#8).length := by
  rw [List.length_replicate]
  decide
theorem witness_PlacedWordRunsNext :
    decodeTableWord 16 0xFF65 = some (.ldVxMem 15) ∧ decodeTableWord 16 0 = some (.sys 0x000#12) := by decide

theorem witness_CallPushesOwnAddress :
    (∀ depth, State.reset.stackDepth = some depth → State.reset.stack.length < depth) ∧
    (∀ depth, ({ State.reset with stackDepth := some 1 } : State).stackDepth = some depth → State.reset.stack.length < depth) := by
  constructor <;> intro depth h <;> cases h
  decide

theorem witness_CallOnFullStackHalts :
    inside.stackDepth = some 1 ∧ 1 ≤ inside.stack.length ∧
    ({ State.reset with stackDepth := some 0 } : State).stackDepth = some 0 ∧ 0 ≤ State.reset.stack.length := by decide

theorem witness_RetResumesAfterCaller : inside.stack = [] ++ [0x200#16] := rfl
theorem witness_RetOnEmptyStackHalts : State.reset.stack = [] := rfl

theorem witness_CallThenRetResumes :
    ∃ t u : State, exec (.call 0x300#12) State.reset = .next t ∧ t.halted = State.reset.halted ∧ State.reset.halted = false ∧
      u.stack = t.stack ∧ u ≠ t :=
  ⟨_, { State.reset with stack := [0x200#16], pc := 0x30A#16 }, rfl, rfl, rfl, rfl, by decide⟩

/-- Every way to move the PC, both outcomes of a condition, one witness each. -/
theorem witness_PcUpdatePolicy :
    State.reset.halted = false ∧ inside.halted = false ∧ (start [(0, 0xFF)]).halted = false ∧
    (∃ t, exec .cls State.reset = .next t ∧ t.halted = false ∧ t.pc = 0x202#16) ∧
    (∃ t, exec (.seVxKk 0 0x00#8) State.reset = .next t ∧ t.halted = false ∧ t.pc = 0x204#16) ∧
    (∃ t, exec (.seVxKk 0 0x01#8) State.reset = .next t ∧ t.halted = false ∧ t.pc = 0x202#16) ∧
    (∃ t, exec (.jp 0xFFF#12) State.reset = .next t ∧ t.halted = false ∧ t.pc = 0xFFF#16) ∧
    (∃ t, exec (.call 0x000#12) State.reset = .next t ∧ t.halted = false ∧ t.pc = 0x000#16) ∧
    (∃ t, exec (.jpV0 0xFFF#12) (start [(0, 0xFF)]) = .next t ∧ t.halted = false ∧ t.pc = 0x10FE#16) ∧
    (∃ t, exec .ret inside = .next t ∧ t.halted = false ∧ t.pc = 0x202#16) ∧
    (∃ t, exec (.ldVxK 1) State.reset = .next t ∧ t.halted = false ∧ t.pc = 0x200#16) ∧
    (∃ t, exec (.ldVxK 1) { State.reset with key := ⟨0xF#4, true⟩ } = .next t ∧ t.halted = false ∧ t.pc = 0x202#16) :=
  ⟨rfl, rfl, rfl, ⟨_, rfl, rfl, by decide⟩, ⟨_, rfl, rfl, by decide⟩, ⟨_, rfl, rfl, by decide⟩, ⟨_, rfl, rfl, by decide⟩,
    ⟨_, rfl, rfl, by decide⟩, ⟨_, rfl, rfl, by decide⟩, ⟨_, rfl, rfl, by decide⟩, ⟨_, rfl, rfl, by decide⟩,
    ⟨_, rfl, rfl, by decide⟩⟩

/-- The policy's own cases, on PCs the spec gives (95_test_vectors.md §2.2, §2.6). -/
theorem test_next_pc :
    nextPc (.jp 0x234#12) State.reset = 0x234#16 ∧ nextPc .ret inside = 0x202#16 ∧
    nextPc (.jpV0 0xFFF#12) (start [(0, 0xFF)]) = 0x10FE#16 ∧ nextPc (.seVxKk 3 0x42#8) (start [(3, 0x42)]) = 0x204#16 ∧
    nextPc (.sneVxKk 3 0x42#8) (start [(3, 0x42)]) = 0x202#16 ∧
    nextPc (.sknp 5) { start [(5, 0x0A)] with key := ⟨0xB#4, true⟩ } = 0x204#16 ∧ nextPc (.ldVxK 1) State.reset = 0x200#16 := by
  decide

/-- A core at the self-jump 0x1200 (95_test_vectors.md §2.2) with a delay of `dt` and some frames sent. -/
def looping (dt : Byte) (outputs : List Output) : State :=
  { State.reset with mem := [(0x200, 0x12)], dt := dt, outputs := outputs }

theorem witness_SelfJumpRepeats : (looping 5 []).halted = false ∧ AtSelfJump 0x200#12 (looping 5 []) :=
  ⟨rfl, by decide, rfl⟩

theorem witness_OnlyTheseWriteVf :
    (∃ t, exec (.addVxVy 0 1) (start [(0, 0xFF), (1, 0x01)]) = .next t ∧ t.getV 15 ≠ (start [(0, 0xFF), (1, 0x01)]).getV 15) ∧
    (∃ t, exec (.drw 0 1 0x0#4) (start [(15, 0x77)]) = .next t ∧ t.getV 15 ≠ (start [(15, 0x77)]).getV 15) ∧
    (∃ t, exec (.ldVxKk 15 0x01#8) State.reset = .next t ∧ t.getV 15 ≠ State.reset.getV 15) ∧
    (∃ t, exec (.or 15 0) (start [(0, 0x01)]) = .next t ∧ t.getV 15 ≠ (start [(0, 0x01)]).getV 15) ∧
    (∃ t, exec (.ldVxMem 15) State.reset = .next t ∧ t.getV 15 ≠ State.reset.getV 15) :=
  ⟨⟨_, rfl, by decide⟩, ⟨_, rfl, by decide⟩, ⟨_, rfl, by decide⟩, ⟨_, rfl, by decide⟩, ⟨_, rfl, by decide⟩⟩

theorem witness_VfNeverReadImplicitly :
    namesVf (.addVxVy 0 14) = false ∧ ∃ t, exec (.addVxVy 0 14) (start [(0, 0xFF), (14, 0x01)]) = .next t :=
  ⟨rfl, _, rfl⟩

/-- All registers 0x11 and I at `i`. -/
def blockAt (i : Word) : State := { State.reset with v := Vector.replicate 16 0x11#8, i := i }

theorem witness_BcdStoresDigits : (blockAt 0xFFD#16).i.toNat + 2 < 0x1000 := by decide
theorem witness_DumpStoresRegisters : (blockAt 0xFF0#16).i.toNat + (15 : RegIdx).val < 0x1000 := by decide
theorem witness_LoadFillsRegisters : (blockAt 0xFFF#16).i.toNat + (0 : RegIdx).val < 0x1000 := by decide

theorem witness_DumpThenLoadRestores :
    (blockAt 0xFFE#16).i.toNat + (1 : RegIdx).val < 0x1000 ∧
    ∃ t u : State, exec (.ldMemVx 1) (blockAt 0xFFE#16) = .next t ∧ u.mem = t.mem ∧ u.i = t.i ∧ u.getV 0 ≠ t.getV 0 :=
  ⟨by decide, _, { blockAt 0xFFE#16 with mem := [(0xFFE, 0x11), (0xFFF, 0x11)], v := Vector.replicate 16 0x00#8 }, rfl,
    by decide, rfl, by decide⟩

/-- The first block of each form that reaches beyond memory, and its last that does not. -/
theorem witness_BlocksBeyondMemoryHalt :
    0x1000 ≤ (blockAt 0xFFE#16).i.toNat + 2 ∧ ¬ 0x1000 ≤ (blockAt 0xFFD#16).i.toNat + 2 ∧
    0x1000 ≤ (blockAt 0xFF1#16).i.toNat + (15 : RegIdx).val ∧ ¬ 0x1000 ≤ (blockAt 0xFF0#16).i.toNat + (15 : RegIdx).val ∧
    (0xF#4 ≠ 0#4 ∧ 0x1000 < (blockAt 0xFF2#16).i.toNat + (0xF#4).toNat) ∧
    ¬ 0x1000 < (blockAt 0xFF1#16).i.toNat + (0xF#4).toNat ∧ ¬ (blockAt 0x1000#16).i.toNat < 0x1000 := by decide

theorem witness_OnlyStoresWriteMemory :
    (∃ t, exec (.ldBVx 0) (blockAt 0xFFD#16) = .next t ∧ t.mem.read 0xFFF ≠ (blockAt 0xFFD#16).mem.read 0xFFF) ∧
    (∃ t, exec (.ldMemVx 15) (blockAt 0xFF0#16) = .next t ∧ t.mem.read 0xFFF ≠ (blockAt 0xFF0#16).mem.read 0xFFF) :=
  ⟨⟨_, rfl, by decide⟩, ⟨_, rfl, by decide⟩⟩

/-- A fetch at `pc` from memory whose last two bytes are `hi` and `lo`. -/
def fetchAfter (pc : Word) (hi lo : Byte) : State := { State.reset with mem := [(0xFFE, hi), (0xFFF, lo)], pc := pc }

/-- A dump to the last two bytes of memory, fetched whole and from the byte before; a BCD store of 17 to the last three. -/
theorem witness_StoreSeenByNextFetch :
    (∃ t, (fetchAfter 0xFFE#16 0x11 0x11).mem = t.mem ∧ (fetchAfter 0xFFE#16 0x11 0x11).pc.toNat + 1 < 0x1000 ∧
      (fetchAfter 0xFFD#16 0x11 0x11).mem = t.mem ∧ (fetchAfter 0xFFD#16 0x11 0x11).pc.toNat + 1 < 0x1000 ∧
      (blockAt 0xFFE#16).i.toNat + (1 : RegIdx).val < 0x1000 ∧ exec (.ldMemVx 1) (blockAt 0xFFE#16) = .next t) ∧
    (∃ t, (fetchAfter 0xFFE#16 0x01 0x07).mem = t.mem ∧ (fetchAfter 0xFFE#16 0x01 0x07).pc.toNat + 1 < 0x1000 ∧
      (blockAt 0xFFD#16).i.toNat + 2 < 0x1000 ∧ exec (.ldBVx 0) (blockAt 0xFFD#16) = .next t) :=
  ⟨⟨_, by decide, by decide, by decide, by decide, by decide, rfl⟩, ⟨_, by decide, by decide, by decide, rfl⟩⟩

/-- What the statement gives there: the stored bytes, and the old byte where the fetch starts before the block. -/
theorem test_store_seen :
    (fetchAfter 0xFFD#16 0x11 0x11).fetch.toOption = some 0x0011#16 ∧
    dumpedByte 1 (blockAt 0xFFE#16) 0xFFD ++ dumpedByte 1 (blockAt 0xFFE#16) 0xFFE = 0x0011#16 ∧
    (fetchAfter 0xFFE#16 0x01 0x07).fetch.toOption = some 0x0107#16 ∧
    digitByte 0 (blockAt 0xFFD#16) 0xFFE ++ digitByte 0 (blockAt 0xFFD#16) 0xFFF = 0x0107#16 := by decide

/-- Each kind of special state does change somewhere. -/
theorem witness_OnlyTheseWriteSpecialState :
    (∃ t, exec (.ldI 0x001#12) State.reset = .next t ∧ t.i ≠ State.reset.i) ∧
    (∃ t, exec (.call 0x300#12) State.reset = .next t ∧ t.stack ≠ State.reset.stack) ∧
    (∃ t, exec (.ldDtVx 0) (blockAt 0#16) = .next t ∧ t.dt ≠ (blockAt 0#16).dt) ∧
    (∃ t, exec (.ldStVx 0) (blockAt 0#16) = .next t ∧ t.st ≠ (blockAt 0#16).st) ∧
    (∃ t, exec (.drw 0 0 0x1#4) (blockAt 0#16) = .next t ∧ t.fb.pixel 17 17 ≠ (blockAt 0#16).fb.pixel 17 17) :=
  ⟨⟨_, rfl, by decide⟩, ⟨_, rfl, by decide⟩, ⟨_, rfl, by decide⟩, ⟨_, rfl, by decide⟩, ⟨_, rfl, by decide +kernel⟩⟩

theorem witness_DrwTogglesCoveredCells :
    (blockAt 0xFF1#16).i.toNat + (0xF#4).toNat ≤ 0x1000 ∧ ((0#4 : Nibble) = 0#4 ∨ (blockAt 0xFFFF#16).i.toNat + (0#4).toNat ≤ 0x1000) ∧
    covers (bytesAt (blockAt 0#16).mem 0 5) 0x11 0x11 17 17 ∧ ¬ covers (bytesAt (blockAt 0#16).mem 0 0) 0x11 0x11 17 17 := by
  refine ⟨by decide, .inl rfl, ⟨0, 0, by decide, by decide, by decide, by decide, by decide⟩, ?_⟩
  rintro ⟨c, r, -, h, -⟩
  simp [bytesAt] at h

/-- On a clear screen the first draw meets no set cell; on a full one it does. -/
theorem witness_DrawTwiceRestores :
    (blockAt 0#16).i.toNat + (0x5#4).toNat ≤ 0x1000 ∧
    (∃ t, exec (.drw 0 1 0x5#4) (blockAt 0#16) = .next t ∧
      t.getV 0 = (blockAt 0#16).getV 0 ∧ t.getV 1 = (blockAt 0#16).getV 1 ∧ t.getV 15 = 0#8) ∧
    (∃ t, exec (.drw 0 1 0x5#4) { blockAt 0#16 with fb := Vector.replicate 32 (Vector.replicate 64 true) } = .next t ∧
      t.getV 0 = (blockAt 0#16).getV 0 ∧ t.getV 1 = (blockAt 0#16).getV 1 ∧ t.getV 15 = 1#8) :=
  ⟨by decide, ⟨_, rfl, by decide +kernel, by decide +kernel, by decide +kernel⟩,
    ⟨_, rfl, by decide +kernel, by decide +kernel, by decide +kernel⟩⟩

theorem witness_WaitForKey :
    State.reset.key.pressed = false ∧ ({ State.reset with key := ⟨0xF#4, true⟩ } : State).key.pressed = true := ⟨rfl, rfl⟩

theorem witness_TimerTickCountsDown :
    ({ State.reset with halted := true } : State).halted = true ∧ (looping 0 []).halted = false ∧
    ({ State.reset with st := 1#8 } : State).halted = false := ⟨rfl, rfl, rfl⟩

theorem witness_DisplayTickHandsOverFrame : State.reset.halted = false := rfl

/-- A core about to run `op`, with VA = 9 and both timers at 8. -/
def setsTimer (op : Nat) : State :=
  { (start [(10, 9)]).withFetchWord 16 op with dt := 8#8, st := 8#8, schedule := [.cpu noKey 0] }

theorem witness_TimersRiseOnlyWhenSet :
    (∃ t, step (setsTimer 0xFA15) = .next t ∧ (setsTimer 0xFA15).dt < t.dt) ∧
    (∃ t, step (setsTimer 0xFA18) = .next t ∧ (setsTimer 0xFA18).st < t.st) :=
  ⟨⟨_, rfl, by decide⟩, ⟨_, rfl, by decide⟩⟩

/-- Ticks in turn: CPU, timer, display. -/
def turn (n : Nat) : Tick := if n % 3 = 0 then .cpu noKey 0 else if n % 3 = 1 then .timer else .display

/-- The run of the looping core, from a delay of 2, under those ticks. -/
def turnState (n : Nat) : State :=
  looping (BitVec.ofNat 8 (2 - (n + 1) / 3)) (List.replicate (n / 3) (.render State.reset.fb))

theorem looping_cpu (dt : Byte) (o : List Output) : tick (.cpu noKey 0) (looping dt o) = .next (looping dt o) := by
  have h : (looping dt o).fetch = .ok 0x1200#16 := by
    have hm : (looping dt o).mem = (looping 0 []).mem := rfl
    unfold State.fetch State.memRead
    rw [hm, show (looping dt o).pc = 0x200#16 from rfl]
    decide
  change State.runFetched (looping dt o) (looping dt o).fetch = _
  rw [h]
  change exec (decodeWord 0x1200#16) _ = _
  rw [show decodeWord 0x1200#16 = .jp 0x200#12 by decide]
  rfl

theorem looping_timer (dt : Byte) (o : List Output) : tick .timer (looping dt o) = .next (looping (countDown dt) o) := rfl

theorem looping_display (dt : Byte) (o : List Output) :
    tick .display (looping dt o) = .next (looping dt (.render State.reset.fb :: o)) := rfl

theorem turn_run : Run turn turnState := by
  intro n
  obtain ⟨k, h⟩ : ∃ k, n = 3 * k ∨ n = 3 * k + 1 ∨ n = 3 * k + 2 := ⟨n / 3, by omega⟩
  have e0 : (3 * k) / 3 = k := by omega
  have e1 : (3 * k + 1) / 3 = k := by omega
  have e2 : (3 * k + 2) / 3 = k := by omega
  have e3 : (3 * k + 3) / 3 = k + 1 := by omega
  rcases h with rfl | rfl | rfl
  · rw [show turn (3 * k) = .cpu noKey 0 by simp [turn]]
    simp only [turnState, Nat.add_assoc, Nat.reduceAdd, e0, e1, e2, looping_cpu]
  · rw [show turn (3 * k + 1) = .timer by simp [turn, Nat.add_mod]]
    simp only [turnState, Nat.add_assoc, Nat.reduceAdd, e1, e2, e3, looping_timer]
    congr 2
    rcases k with _ | _ | k
    · decide
    · decide
    · rw [show 2 - (k + 1 + 1) = 0 by omega, show 2 - (k + 1 + 1 + 1) = 0 by omega]; decide
  · rw [show turn (3 * k + 2) = .display by simp [turn, Nat.add_mod]]
    simp only [turnState, Nat.add_assoc, Nat.reduceAdd, e2, e3, show (3 * k + 4) / 3 = k + 1 by omega, looping_display,
      List.replicate_succ]

theorem turn_fair : Fair turn := by
  intro n
  refine ⟨⟨3 * n, by omega, ?_⟩, ⟨3 * n + 1, by omega, ?_⟩, ⟨3 * n + 2, by omega, ?_⟩⟩ <;>
    simp [turn, Nat.add_mod, isCpuTick]

theorem witness_FairRunsExpireDelayTimer :
    Run turn turnState ∧ Fair turn ∧ (∀ n, (turnState n).halted = false) ∧
    (∀ n, (turnState (n + 1)).dt ≤ (turnState n).dt) ∧ (turnState 0).dt ≠ 0#8 := by
  refine ⟨turn_run, turn_fair, fun _ => rfl, fun n => ?_, by decide⟩
  change BitVec.ofNat 8 (2 - (n + 1 + 1) / 3) ≤ BitVec.ofNat 8 (2 - (n + 1) / 3)
  simp only [BitVec.le_def, BitVec.toNat_ofNat]
  omega

/-- The looping core with a sound count of `st` and what it has sent, newest first. -/
def sounding (st : Byte) (outputs : List Output) : State :=
  { State.reset with mem := [(0x200, 0x12)], st := st, outputs := outputs }

/-- Ticks and states of a run from ST = 1: a CPU tick at the self-jump, a display tick, then timer ticks. -/
def soundTick (n : Nat) : Tick := if n = 0 then .cpu noKey 0 else if n = 1 then .display else .timer

def soundState : Nat → State
  | 0 => sounding 1#8 []
  | 1 => sounding 1#8 []
  | 2 => sounding 1#8 [.render State.reset.fb]
  | _ + 3 => sounding 0#8 [.beep, .render State.reset.fb]

theorem witness_OneBeepPerSoundCount :
    Run soundTick soundState ∧ (∀ n, n < 3 → (soundState n).halted = false) ∧
    (∀ n, n < 3 → soundTick n ≠ .timer → (soundState (n + 1)).st = (soundState n).st) ∧
    1 ≤ (soundState 0).st.toNat ∧ timerTicks soundTick 3 = 1 := by
  refine ⟨fun n => ?_, by decide, by decide, by decide, by decide⟩
  match n with
  | 0 => rfl
  | 1 => rfl
  | 2 => rfl
  | n + 3 => rfl

theorem witness_FatalErrorIsPrecise :
    ∃ t, State.reset.halted = false ∧ exec .ret State.reset = .next t ∧ t.halted = true := ⟨_, rfl, rfl, rfl⟩

/-- Each cause, at the boundary of its condition, and an instruction that raises none. -/
theorem witness_FatalCausesAreExactly :
    (State.reset.halted = false ∧ State.reset.fatalCause = 0#3) ∧
    (blockAt 0xFFF#16).halted = false ∧ (blockAt 0xFFF#16).fatalCause = 0#3 ∧
    inside.halted = false ∧ inside.fatalCause = 0#3 ∧
    (∃ t, exec (.sys 0x000#12) State.reset = .next t ∧ t.fatalCause = 1#3) ∧
    (∃ t, exec .ret State.reset = .next t ∧ t.fatalCause = 2#3) ∧
    (∃ t, exec (.call 0x300#12) inside = .next t ∧ t.fatalCause = 3#3) ∧
    (∃ t, exec (.ldMemVx 1) (blockAt 0xFFF#16) = .next t ∧ t.fatalCause = 4#3) ∧
    (∃ t, exec (.ldMemVx 0) (blockAt 0xFFF#16) = .next t ∧ t.fatalCause = 0#3) :=
  ⟨⟨rfl, rfl⟩, rfl, rfl, rfl, rfl, ⟨_, rfl, rfl⟩, ⟨_, rfl, rfl⟩, ⟨_, rfl, rfl⟩, ⟨_, rfl, rfl⟩, ⟨_, rfl, rfl⟩⟩

end Sys2Proof.Tests
end

/-! Fatal errors (60_exceptions.md): the one way an instruction halts the core, and that it is precise. -/

namespace Sys2Proof.Machine

/-- Every fatal error has one of the four causes of R261. -/
theorem Fault.code_bounds (f : Fault) : 1 ≤ f.code.toNat ∧ f.code.toNat ≤ 4 := by
  cases f <;> simp [Fault.code]

/-- An instruction halts a running core in one way alone: by raising a fatal error on the state it started from. -/
theorem exec_halted_eq_raiseFatal {i : Instr} {s t : State} (hrun : s.halted = false) (hexec : exec i s = .next t)
    (hhalt : t.halted = true) : ∃ f, t = s.raiseFatal f (encode i) := by
  obtain ⟨f, hf⟩ | ⟨u, hu, hframe⟩ := exec_shapes i s
  · exact ⟨f, Host.Outcome.next.inj (hexec.symm.trans hf)⟩
  · -- The other shape keeps HALTED, so it cannot end halted.
    obtain rfl : t = u := Host.Outcome.next.inj (hexec.symm.trans hu)
    have hkept : t.halted = s.halted := by rw [hframe]
    simp [hkept, hrun] at hhalt

/-- Settles O59: the halted state is `raiseFatal` on the old state, which latches the diagnostic and keeps the rest. -/
theorem fatalErrorIsPrecise : Obligations.FatalErrorIsPrecise := by
  intro i s t hrun hexec hhalt
  obtain ⟨f, rfl⟩ := exec_halted_eq_raiseFatal hrun hexec hhalt
  exact ⟨rfl, f.code_bounds⟩

end Sys2Proof.Machine

/-! The one next state of an instruction. -/

namespace Sys2Proof.Machine

/-- What holds of some next state of an instruction holds of the next state it answers. -/
theorem exec_next_elim {i : Instr} {s t : State} {p : State → Prop} (h : ∃ u, exec i s = .next u ∧ p u)
    (hexec : exec i s = .next t) : p t := by
  obtain ⟨u, hu, hp⟩ := h
  obtain rfl : t = u := Host.Outcome.next.inj (hexec.symm.trans hu)
  exact hp

end Sys2Proof.Machine

/-! What one step can do (70_reset_and_hazards.md R304): the state is halted, or one tick of one kind comes to pass. -/

namespace Sys2Proof.Machine

/-- Everything a step of `s` can answer, with the guards of each case. A CPU tick ends at its fetch or in an instruction. -/
inductive StepCase (s : State) : State → Prop
  | halted (hhalt : s.halted = true) : StepCase s s
  | fetchFault (hrun : s.halted = false) (key : KeySample) (rand : Byte) (htick : s.nextTick = .cpu key rand) (f : Fault)
      (hfetch : s.fetch = .error f) : StepCase s ((s.strobe.sample key rand).raiseFatal f 0x0000#16)
  | instruction (hrun : s.halted = false) (key : KeySample) (rand : Byte) (htick : s.nextTick = .cpu key rand) (op : Word)
      (hfetch : s.fetch = .ok op) (t : State) (hexec : exec (decodeWord op) (s.strobe.sample key rand) = .next t) :
      StepCase s t
  | timer (hrun : s.halted = false) (htick : s.nextTick = .timer) :
      StepCase s ((s.strobe.beepIfDue.setDt (countDown s.dt)).setSt (countDown s.st))
  | display (hrun : s.halted = false) (htick : s.nextTick = .display) : StepCase s (s.strobe.emit (.render s.fb))

/-- Taking a strobe and sampling the ports leave the fetched word alone. -/
theorem State.fetch_sample_strobe (s : State) (key : KeySample) (rand : Byte) :
    (s.strobe.sample key rand).fetch = s.fetch := by
  rw [State.strobe_frame, State.fetch_eq, State.fetch_eq]
  rfl

@[simp] theorem State.strobe_halted (s : State) : s.strobe.halted = s.halted := by rw [State.strobe_frame]
@[simp] theorem State.strobe_dt (s : State) : s.strobe.dt = s.dt := by rw [State.strobe_frame]
@[simp] theorem State.strobe_st (s : State) : s.strobe.st = s.st := by rw [State.strobe_frame]
@[simp] theorem State.strobe_fb (s : State) : s.strobe.fb = s.fb := by rw [State.strobe_frame]

/-- A CPU tick of a running core: the fetch's own fatal error, or the fetched instruction. -/
theorem stepCase_of_cpuTick {s t : State} {key : KeySample} {rand : Byte} (hrun : s.halted = false)
    (htick : s.nextTick = .cpu key rand) (hcpu : cpuTick key rand s.strobe = .next t) : StepCase s t := by
  rw [cpuTick, s.strobe_halted, hrun, if_neg Bool.false_ne_true, s.fetch_sample_strobe] at hcpu
  cases hfetch : s.fetch with
  | error f =>
    rw [hfetch] at hcpu
    obtain rfl := Host.Outcome.next.inj hcpu
    exact .fetchFault hrun key rand htick f hfetch
  | ok op =>
    rw [hfetch] at hcpu
    exact .instruction hrun key rand htick op hfetch t hcpu

theorem timerTick_strobe {s : State} (hrun : s.halted = false) :
    timerTick s.strobe = (s.strobe.beepIfDue.setDt (countDown s.dt)).setSt (countDown s.st) := by
  rw [timerTick, s.strobe_halted, hrun, if_neg Bool.false_ne_true, s.strobe_dt, s.strobe_st]

theorem displayTick_strobe {s : State} (hrun : s.halted = false) :
    displayTick s.strobe = s.strobe.emit (.render s.fb) := by
  rw [displayTick, s.strobe_halted, hrun, if_neg Bool.false_ne_true, s.strobe_fb]

theorem step_cases {s t : State} (hstep : step s = .next t) : StepCase s t := by
  cases hhalt : s.halted with
  | true =>
    rw [step, if_pos hhalt] at hstep
    obtain rfl := Host.Outcome.next.inj hstep
    exact .halted hhalt
  | false =>
    rw [step, hhalt, if_neg Bool.false_ne_true] at hstep
    cases htick : s.nextTick with
    | cpu key rand =>
      rw [htick] at hstep
      exact stepCase_of_cpuTick hhalt htick hstep
    | timer =>
      rw [htick, tick, timerTick_strobe hhalt] at hstep
      obtain rfl := Host.Outcome.next.inj hstep
      exact .timer hhalt htick
    | display =>
      rw [htick, tick, displayTick_strobe hhalt] at hstep
      obtain rfl := Host.Outcome.next.inj hstep
      exact .display hhalt htick

/-- The beep is an output and changes nothing else. -/
theorem State.beepIfDue_frame (s : State) : s.beepIfDue = { s with outputs := s.beepIfDue.outputs } := by
  unfold State.beepIfDue
  split <;> rfl

/-- Settles O10: every tick, and the step, test HALTED before anything else. -/
theorem haltedCoreStaysAsItIs : Obligations.HaltedCoreStaysAsItIs := by
  intro s hhalt
  refine ⟨by rw [step, if_pos hhalt], fun t => ?_⟩
  cases t with
  | cpu key rand => rw [tick, cpuTick, if_pos hhalt]
  | timer => rw [tick, timerTick, if_pos hhalt]
  | display => rw [tick, displayTick, if_pos hhalt]

end Sys2Proof.Machine

/-! The invariant (10_state.md R26, R30, R31; 60_exceptions.md R261, R262): how each state operation keeps it, then each
instruction, then the step. -/

namespace Sys2Proof.Safety

open Sys2Proof.Machine

/-! The invariant speaks of memory, the stack with its depth, PC and the diagnostic; writing anything else keeps it. -/

theorem Inv.setV {s : State} (h : Inv s) (x : RegIdx) (b : Byte) : Inv (s.setV x b) := { h with }
theorem Inv.setI {s : State} (h : Inv s) (w : Word) : Inv (s.setI w) := { h with }
theorem Inv.setDt {s : State} (h : Inv s) (b : Byte) : Inv (s.setDt b) := { h with }
theorem Inv.setSt {s : State} (h : Inv s) (b : Byte) : Inv (s.setSt b) := { h with }
theorem Inv.setFb {s : State} (h : Inv s) (fb : Framebuffer) : Inv (s.setFb fb) := { h with }
theorem Inv.emit {s : State} (h : Inv s) (o : Output) : Inv (s.emit o) := { h with }
theorem Inv.sample {s : State} (h : Inv s) (key : KeySample) (rand : Byte) : Inv (s.sample key rand) := { h with }
theorem Inv.strobe {s : State} (h : Inv s) : Inv s.strobe := by
  rw [State.strobe_frame]
  exact { h with }

/-! Writing PC, memory or the stack keeps it where the value written is in bounds; a PC write needs a running core, because the
diagnostic of a halted one names the PC. -/

theorem Inv.setMem {s : State} (h : Inv s) {m : Memory} (hm : m.wf) : Inv (s.setMem m) := { h with memWf := hm }

theorem Inv.setStack {s : State} (h : Inv s) {stk : List Word}
    (hbound : ∀ depth, s.stackDepth = some depth → stk.length ≤ depth) (haddr : ∀ a ∈ stk, a.toNat ≤ 0xFFE) :
    Inv (s.setStack stk) := { h with stackBound := hbound, stackAddresses := haddr }

theorem Inv.setPc {s : State} (h : Inv s) (hrun : s.halted = false) {w : Word} (hw : w.toNat ≤ 0x10FE) :
    Inv (s.setPc w) :=
  { h with
    pcBound := hw
    haltedSet := fun hhalt => absurd (hrun.symm.trans hhalt) Bool.false_ne_true }

theorem trunc16_toNat_le (n : Nat) : (trunc16 n).toNat ≤ n := Nat.mod_le _ _

theorem Inv.advance {s : State} (h : Inv s) (hrun : s.halted = false) (hpc : s.pc.toNat + 1 < 0x1000) : Inv s.advance :=
  h.setPc hrun (by have := trunc16_toNat_le (s.pc.toNat + 2); omega)

theorem Inv.skipIf {s : State} (h : Inv s) (hrun : s.halted = false) (hpc : s.pc.toNat + 1 < 0x1000) (c : Bool) :
    Inv (s.skipIf c) := by
  cases c with
  | false => exact h.advance hrun hpc
  | true => exact h.setPc hrun (by have := trunc16_toNat_le (s.pc.toNat + 4); omega)

theorem Inv.alu {s : State} (h : Inv s) (hrun : s.halted = false) (hpc : s.pc.toNat + 1 < 0x1000) (fn : AluFn) (x : RegIdx)
    (a b : Byte) : Inv (s.alu fn x a b) := by
  unfold State.alu
  cases aluFlag fn a b with
  | none => exact (h.setV _ _).advance hrun hpc
  | some f => exact ((h.setV _ _).setV _ _).advance hrun hpc

theorem Inv.loadRegs {s : State} (h : Inv s) (k : Nat) (bs : List Byte) : Inv (s.loadRegs k bs) := by
  rw [State.loadRegs_frame]
  exact { h with }

/-! A fatal error keeps it, where the address it names is one beyond memory that FATAL_ADDR can hold. -/

/-- A memory fault names an address beyond memory, and one that fits FATAL_ADDR. -/
def LatchesAddress : Fault → Prop
  | .memoryOutOfRange a => 0x1000 ≤ a ∧ a < 0x10000
  | _ => True

theorem LatchesAddress.address_eq {f : Fault} (hf : LatchesAddress f) :
    if f.code = 4#3 then 0x1000 ≤ f.address.toNat else f.address = 0#16 := by
  cases f with
  | memoryOutOfRange a =>
    obtain ⟨hlow, hhigh⟩ := hf
    rw [if_pos (show (Fault.memoryOutOfRange a).code = 4#3 from rfl), Fault.address, trunc16, BitVec.toNat_ofNat,
      Nat.mod_eq_of_lt hhigh]
    exact hlow
  | _ => decide

theorem firstBeyond_bounds (w : Word) : 0x1000 ≤ firstBeyond w.toNat ∧ firstBeyond w.toNat < 0x10000 := by
  have := w.isLt
  unfold firstBeyond
  split <;> omega

theorem latchesAddress_firstBeyond (w : Word) : LatchesAddress (.memoryOutOfRange (firstBeyond w.toNat)) :=
  firstBeyond_bounds w

theorem latchesAddress_of_fetch {s : State} {f : Fault} (hfetch : s.fetch = .error f) : LatchesAddress f := by
  rw [State.fetch_eq] at hfetch
  split at hfetch
  · cases hfetch
  · cases hfetch
    exact latchesAddress_firstBeyond s.pc

theorem Inv.raiseFatal {s : State} (h : Inv s) {f : Fault} (hf : LatchesAddress f) (op : Word) : Inv (s.raiseFatal f op) :=
  { h with
    runningClear := fun hrun => absurd hrun.symm Bool.false_ne_true
    haltedSet := fun _ => ⟨f.code_bounds.1, f.code_bounds.2, rfl, hf.address_eq⟩ }

/-! The instructions. -/

theorem Inv.call {s : State} (h : Inv s) (hrun : s.halted = false) (hpc : s.pc.toNat + 1 < 0x1000) (nnn : Addr12)
    (hroom : ¬ s.stackFull = true) : Inv ((s.setStack (s.stack ++ [s.pc])).setPc (zext16 nnn)) := by
  have hbound : ∀ depth, s.stackDepth = some depth → (s.stack ++ [s.pc]).length ≤ depth := by
    intro depth hdepth
    have hlt : ¬ depth ≤ s.stack.length := fun hle => hroom (s.stackFull_iff.2 ⟨depth, hdepth, hle⟩)
    rw [List.length_append, List.length_singleton]
    omega
  have haddr : ∀ a ∈ s.stack ++ [s.pc], a.toNat ≤ 0xFFE := by
    intro a ha
    rcases List.mem_append.1 ha with hold | hnew
    · exact h.stackAddresses a hold
    · rw [List.mem_singleton.1 hnew]
      omega
  have := nnn.isLt
  exact (h.setStack hbound haddr).setPc hrun (by rw [toNat_zext16]; omega)

theorem Inv.ret {s : State} (h : Inv s) (hrun : s.halted = false) {a : Word} (hlast : s.stack.getLast? = some a) :
    Inv ((s.setStack s.stack.dropLast).setPc (trunc16 (a.toNat + 2))) := by
  have hbound : ∀ depth, s.stackDepth = some depth → s.stack.dropLast.length ≤ depth := by
    intro depth hdepth
    have := h.stackBound depth hdepth
    rw [List.length_dropLast]
    omega
  have haddr := h.stackAddresses a (List.mem_of_getLast? hlast)
  have htrunc := trunc16_toNat_le (a.toNat + 2)
  exact (h.setStack hbound fun b hb => h.stackAddresses b (List.mem_of_mem_dropLast hb)).setPc hrun (by omega)

/-- An instruction fetched from inside memory keeps the invariant, whether it completes or halts the core. -/
theorem Inv.exec {s : State} (h : Inv s) (hrun : s.halted = false) (hpc : s.pc.toNat + 1 < 0x1000) (i : Instr) :
    ∃ t, exec i s = .next t ∧ Inv t := by
  cases i with
  | cls => exact ⟨_, rfl, (h.setFb _).advance hrun hpc⟩
  | ret =>
    refine ⟨_, exec_ret_eq s, ?_⟩
    split
    · next a hlast => exact h.ret hrun hlast
    · exact h.raiseFatal (f := .stackUnderflow) trivial _
  | jp nnn => exact ⟨_, rfl, h.setPc hrun (by have := nnn.isLt; rw [toNat_zext16]; omega)⟩
  | call nnn =>
    refine ⟨_, exec_call_eq nnn s, ?_⟩
    split
    · exact h.raiseFatal (f := .stackOverflow) trivial _
    · next hroom => exact h.call hrun hpc nnn hroom
  | jpV0 nnn =>
    refine ⟨_, rfl, h.setPc hrun ?_⟩
    have hsum := trunc16_toNat_le ((zext16 nnn).toNat + (s.getV 0).toNat)
    rw [toNat_zext16] at hsum
    have := nnn.isLt
    have := (s.getV 0).isLt
    rw [State.offsetTarget, toNat_zext16]
    omega
  | ldI nnn => exact ⟨_, rfl, (h.setI _).advance hrun hpc⟩
  | addIVx x => exact ⟨_, rfl, (h.setI _).advance hrun hpc⟩
  | ldFVx x => exact ⟨_, rfl, (h.setI _).advance hrun hpc⟩
  | rnd x kk => exact ⟨_, rfl, (h.setV _ _).advance hrun hpc⟩
  | ldVxDt x => exact ⟨_, rfl, (h.setV _ _).advance hrun hpc⟩
  | ldDtVx x => exact ⟨_, rfl, (h.setDt _).advance hrun hpc⟩
  | ldStVx x => exact ⟨_, rfl, (h.setSt _).advance hrun hpc⟩
  | ldVxK x =>
    refine ⟨_, rfl, ?_⟩
    split
    · exact (h.setV _ _).advance hrun hpc
    · exact h
  | drw x y n =>
    refine ⟨_, exec_drw_eq x y n s, ?_⟩
    split
    · exact ((h.setFb _).setV _ _).advance hrun hpc
    · exact h.raiseFatal (latchesAddress_firstBeyond s.i) _
  | ldBVx x =>
    refine ⟨_, exec_ldBVx_eq x s, ?_⟩
    split
    · next hin => exact (h.setMem (Memory.wf_fill h.memWf _ _ hin)).advance hrun hpc
    · exact h.raiseFatal (latchesAddress_firstBeyond s.i) _
  | ldMemVx x =>
    refine ⟨_, exec_ldMemVx_eq x s, ?_⟩
    split
    · next hin =>
      have hfits : s.base + (s.dumpRegs x).length ≤ Config.memSize := by rw [State.length_dumpRegs]; exact hin
      exact (h.setMem (Memory.wf_fill h.memWf _ _ hfits)).advance hrun hpc
    · exact h.raiseFatal (latchesAddress_firstBeyond s.i) _
  | ldVxMem x =>
    refine ⟨_, exec_ldVxMem_eq x s, ?_⟩
    split
    · refine (h.loadRegs _ _).advance ?_ ?_
      · rw [State.loadRegs_frame]; exact hrun
      · rw [State.loadRegs_frame]; exact hpc
    · exact h.raiseFatal (latchesAddress_firstBeyond s.i) _
  | sys nnn => exact ⟨_, rfl, h.raiseFatal (f := .unknownOpcode) trivial _⟩
  | unknown op => exact ⟨_, rfl, h.raiseFatal (f := .unknownOpcode) trivial _⟩
  | seVxKk | sneVxKk | seVxVy | sneVxVy | skp | sknp => exact ⟨_, rfl, h.skipIf hrun hpc _⟩
  | _ => exact ⟨_, rfl, h.alu hrun hpc _ _ _ _⟩

theorem pc_inside_of_fetch {s : State} {op : Word} (hfetch : s.fetch = .ok op) : s.pc.toNat + 1 < 0x1000 := by
  rw [State.fetch_eq] at hfetch
  split at hfetch
  · assumption
  · cases hfetch

/-- Settles O12: each tick is made of operations that keep the invariant. -/
theorem stepKeepsInv : Obligations.StepKeepsInv := by
  intro s t h hstep
  cases step_cases hstep with
  | halted hhalt => exact h
  | fetchFault hrun key rand htick f hfetch =>
    exact (h.strobe.sample key rand).raiseFatal (latchesAddress_of_fetch hfetch) _
  | instruction hrun key rand htick op hfetch t hexec =>
    have hfetch' := (s.fetch_sample_strobe key rand).trans hfetch
    have hinv := (h.strobe.sample key rand).exec (s.strobe_halted.trans hrun) (pc_inside_of_fetch hfetch') (decodeWord op)
    exact exec_next_elim hinv hexec
  | timer hrun htick =>
    rw [State.beepIfDue_frame]
    exact { h.strobe with }
  | display hrun htick => exact h.strobe.emit _

/-- Settles O13: at reset the stack and memory are empty and the diagnostic is clear. -/
theorem resetMeetsInv : Obligations.ResetMeetsInv where
  memWf := Memory.wf_nil
  stackBound := fun _ hdepth => nomatch hdepth
  stackAddresses := fun _ ha => nomatch ha
  pcBound := by decide
  runningClear := fun _ => ⟨rfl, rfl, rfl, rfl⟩
  haltedSet := fun hhalt => nomatch hhalt

end Sys2Proof.Safety

/-! Reset (10_state.md R34). -/

namespace Sys2Proof.Machine

theorem getV_reset (x : RegIdx) : State.reset.getV x = 0x00#8 := by simp [State.getV, State.reset]

theorem pixel_reset (x : Fin 64) (y : Fin 32) : State.reset.fb.pixel x y = false := by
  simp [Framebuffer.pixel, State.reset]

/-- No cell is listed at reset, and beyond the 80 bytes of the font an unlisted cell reads as zero. -/
theorem read_reset_beyond_font {a : Nat} (ha : 80 ≤ a) : State.reset.mem.read a = 0x00#8 :=
  List.getD_eq_default defaultFont 0x00#8 ha

/-- Settles O14: register file, framebuffer and memory by the lemmas above, the other fields as `State.reset` lists them. -/
theorem resetValues : Obligations.ResetValues :=
  ⟨getV_reset, rfl, rfl, rfl, rfl, rfl, pixel_reset, fun _ _ => rfl, fun _ ha _ => read_reset_beyond_font ha, rfl, rfl, rfl,
    rfl, rfl⟩

end Sys2Proof.Machine

/-! What each instruction may change (10_state.md R21, R24, R26–R28, R33). -/

namespace Sys2Proof.Machine

open Sys2Proof.Safety

/-- The old state `s` with the fields that `i` may change, where it completes, taken from `t`. -/
def footprint (i : Instr) (s t : State) : State :=
  match i with
  | .cls => { s with pc := t.pc, fb := t.fb }
  | .ret | .call _ => { s with pc := t.pc, stack := t.stack }
  | .jp _ | .jpV0 _ | .seVxKk _ _ | .sneVxKk _ _ | .seVxVy _ _ _ | .sneVxVy _ _ _ | .skp _ | .sknp _ => { s with pc := t.pc }
  | .ldI _ | .addIVx _ | .ldFVx _ => { s with pc := t.pc, i := t.i }
  | .ldDtVx _ => { s with pc := t.pc, dt := t.dt }
  | .ldStVx _ => { s with pc := t.pc, st := t.st }
  | .ldBVx _ | .ldMemVx _ => { s with pc := t.pc, mem := t.mem }
  | .drw _ _ _ => { s with pc := t.pc, v := t.v, fb := t.fb }
  | .ldVxKk _ _ | .addVxKk _ _ | .or _ _ | .and _ _ | .xor _ _ | .addVxVy _ _ | .sub _ _ | .shr _ _ | .subn _ _ | .shl _ _
  | .ldVxVy _ _ | .rnd _ _ | .ldVxDt _ | .ldVxK _ | .ldVxMem _ => { s with pc := t.pc, v := t.v }
  | .sys _ | .unknown _ => s

/-- `t` is the halted state of a fatal error of `i` on `s`, or differs from `s` within the footprint of `i`. -/
def Within (i : Instr) (s t : State) : Prop := (∃ f, t = s.raiseFatal f (encode i)) ∨ t = footprint i s t

theorem Within.ite {i : Instr} {s u : State} (hu : u = footprint i s u) (p : Prop) [Decidable p] (f : Fault) :
    Within i s (if p then u else s.raiseFatal f (encode i)) := by
  split
  · exact .inr hu
  · exact .inl ⟨f, rfl⟩

/-- An instruction that completes changes its footprint alone. -/
theorem exec_within (i : Instr) (s : State) : ∃ t, exec i s = .next t ∧ Within i s t := by
  cases i with
  | ret =>
    refine ⟨_, exec_ret_eq s, ?_⟩
    split
    · exact .inr rfl
    · exact .inl ⟨_, rfl⟩
  | call nnn =>
    refine ⟨_, exec_call_eq nnn s, ?_⟩
    split
    · exact .inl ⟨_, rfl⟩
    · exact .inr rfl
  | drw x y n => exact ⟨_, exec_drw_eq x y n s, .ite rfl _ _⟩
  | ldBVx x => exact ⟨_, exec_ldBVx_eq x s, .ite rfl _ _⟩
  | ldMemVx x => exact ⟨_, exec_ldMemVx_eq x s, .ite rfl _ _⟩
  | ldVxMem x => exact ⟨_, exec_ldVxMem_eq x s, .ite (by rw [State.loadRegs_frame]; rfl) _ _⟩
  | seVxKk | sneVxKk | seVxVy | sneVxVy | skp | sknp => exact ⟨_, rfl, .inr (by rw [State.skipIf_eq]; rfl)⟩
  | ldVxK x => exact ⟨_, rfl, .inr (by split <;> rfl)⟩
  | sys | unknown => exact ⟨_, rfl, .inl ⟨_, rfl⟩⟩
  | _ => exact ⟨_, rfl, .inr rfl⟩

theorem within_of_exec {i : Instr} {s t : State} (hexec : exec i s = .next t) : Within i s t :=
  exec_next_elim (exec_within i s) hexec

/-- Settles O46: a fatal error changes none of the fields, and the rest is read off the footprints. -/
theorem onlyTheseWriteSpecialState : Obligations.OnlyTheseWriteSpecialState := by
  intro i s t hexec
  obtain ⟨f, rfl⟩ | hfoot := within_of_exec hexec
  · simp
  · rw [hfoot]
    cases i <;> simp [footprint]

/-! Which instructions change VF (10_state.md R21). -/

theorem eq_of_getV_setV_ne {s : State} {x r : RegIdx} {b : Byte} (h : (s.setV x b).getV r ≠ s.getV r) : x = r := by
  by_contra hne
  exact h (by rw [State.getV_setV, if_neg (Ne.symm hne)])

/-- An ALU instruction with no flag changes its destination alone. -/
theorem eq_of_getV_alu_ne {s : State} {fn : AluFn} {x r : RegIdx} {a b : Byte} (hflag : aluFlag fn a b = none)
    (h : (s.alu fn x a b).getV r ≠ s.getV r) : x = r := by
  rw [State.alu, hflag] at h
  exact eq_of_getV_setV_ne h

/-- A register load changes V0 to Vx alone, so it changes VF only for x = F. -/
theorem eq_of_getV_ldVxMem_ne {x : RegIdx} {s t : State} (hexec : exec (.ldVxMem x) s = .next t)
    (h : t.getV 15 ≠ s.getV 15) : x = 15 := by
  rw [exec_ldVxMem_eq] at hexec
  obtain rfl := Host.Outcome.next.inj hexec
  split at h
  · by_contra hne
    have hx15 : x.val ≠ 15 := Fin.val_ne_of_ne hne
    have hx : x.val + 1 ≤ 15 := by have := x.isLt; omega
    have hload := s.getV_loadRegs 0 (bytesAt s.mem s.base (x.val + 1)) (by rw [length_bytesAt]; omega) 15
    rw [length_bytesAt, if_neg (by simp; omega)] at hload
    exact h hload
  · exact absurd rfl h

/-- Settles O35: outside the list the footprint holds no register, and an instruction in it that writes no flag writes its
destination alone. -/
theorem onlyTheseWriteVf : Obligations.OnlyTheseWriteVf := by
  intro i s t hexec hvf
  obtain ⟨f, rfl⟩ | hfoot := within_of_exec hexec
  · exact absurd rfl hvf
  cases i with
  | addVxVy | sub | shr | subn | shl | drw => simp
  | ldVxKk x kk | addVxKk x kk =>
    obtain rfl := Host.Outcome.next.inj hexec
    obtain rfl := eq_of_getV_alu_ne rfl hvf
    simp
  | or x y | and x y | xor x y | ldVxVy x y =>
    obtain rfl := Host.Outcome.next.inj hexec
    obtain rfl := eq_of_getV_alu_ne rfl hvf
    simp
  | rnd x kk =>
    obtain rfl := Host.Outcome.next.inj hexec
    obtain rfl := eq_of_getV_setV_ne hvf
    simp
  | ldVxDt x =>
    obtain rfl := Host.Outcome.next.inj hexec
    obtain rfl := eq_of_getV_setV_ne hvf
    simp
  | ldVxK x =>
    obtain rfl := Host.Outcome.next.inj hexec
    split at hvf
    · obtain rfl := eq_of_getV_setV_ne hvf
      simp
    · exact absurd rfl hvf
  | ldVxMem x =>
    obtain rfl := eq_of_getV_ldVxMem_ne hexec hvf
    simp
  | _ => exact absurd (by rw [hfoot]; rfl) hvf

end Sys2Proof.Machine

/-! An instruction that does not name VF does not read it (10_state.md R21). -/

namespace Sys2Proof.Machine

open Sys2Proof.Safety

/-- `u` is `s` but for the value of VF. -/
structure SameButVf (s u : State) : Prop where
  frame : u = { s with v := u.v }
  regs : ∀ r, r ≠ 15 → u.getV r = s.getV r

theorem sameButVf_setV (s : State) (b : Byte) : SameButVf s (s.setV 15 b) :=
  ⟨rfl, fun r hr => by rw [State.getV_setV, if_neg hr]⟩

theorem SameButVf.withV {s u : State} (h : SameButVf s u) : ∃ w, u = { s with v := w } := ⟨_, h.frame⟩

/-- What keeps the registers and does the same to the rest of two such states leaves two such states. -/
theorem SameButVf.of_kept {s u t t' : State} (h : SameButVf s u) (ht : t.v = s.v) (ht' : t'.v = u.v)
    (hframe : t' = { t with v := t'.v }) : SameButVf t t' :=
  ⟨hframe, fun r hr => by rw [State.getV_congr ht', State.getV_congr ht, h.regs r hr]⟩

theorem SameButVf.ite {s u t t' : State} (h : SameButVf s u) (h' : SameButVf t t') (p : Prop) [Decidable p] :
    SameButVf (if p then s else t) (if p then u else t') := by
  split
  · exact h
  · exact h'

theorem SameButVf.setV {s u : State} (h : SameButVf s u) (x : RegIdx) (b : Byte) : SameButVf (s.setV x b) (u.setV x b) := by
  refine ⟨?_, fun r hr => by rw [State.getV_setV, State.getV_setV, h.regs r hr]⟩
  obtain ⟨w, rfl⟩ := h.withV
  rfl

theorem SameButVf.raiseFatal {s u : State} (h : SameButVf s u) (f : Fault) (op : Word) :
    SameButVf (s.raiseFatal f op) (u.raiseFatal f op) := by
  obtain ⟨w, rfl⟩ := h.withV
  exact h.of_kept rfl rfl rfl

theorem SameButVf.advance {s u : State} (h : SameButVf s u) : SameButVf s.advance u.advance := by
  obtain ⟨w, rfl⟩ := h.withV
  exact h.of_kept rfl rfl rfl

theorem SameButVf.skipIf {s u : State} (h : SameButVf s u) (c : Bool) : SameButVf (s.skipIf c) (u.skipIf c) := by
  obtain ⟨w, rfl⟩ := h.withV
  rw [State.skipIf_eq, State.skipIf_eq]
  exact h.of_kept rfl rfl rfl

theorem SameButVf.alu {s u : State} (h : SameButVf s u) (fn : AluFn) (x : RegIdx) (a b : Byte) :
    SameButVf (s.alu fn x a b) (u.alu fn x a b) := by
  rw [State.alu, State.alu]
  cases aluFlag fn a b with
  | none => exact (h.setV _ _).advance
  | some f => exact ((h.setV _ _).setV _ _).advance

theorem SameButVf.loadRegs {s u : State} (h : SameButVf s u) (k : Nat) (bs : List Byte) :
    SameButVf (s.loadRegs k bs) (u.loadRegs k bs) := by
  induction bs generalizing s u k with
  | nil => exact h
  | cons b bs ih => exact ih (h.setV _ b) (k + 1)

theorem SameButVf.keyMatches_eq {s u : State} (h : SameButVf s u) {x : RegIdx} (hx : x ≠ 15) :
    u.keyMatches x = s.keyMatches x := by
  rw [State.keyMatches, State.keyMatches, h.regs x hx, show u.key = s.key by rw [h.frame]]

/-- A register dump that stops before VF stores the same bytes. -/
theorem SameButVf.dumpRegs_eq {s u : State} (h : SameButVf s u) {x : RegIdx} (hx : x ≠ 15) : u.dumpRegs x = s.dumpRegs x := by
  have hx15 : x.val ≠ 15 := Fin.val_ne_of_ne hx
  apply List.ext_getElem
  · rw [State.length_dumpRegs, State.length_dumpRegs]
  intro k hk _
  rw [State.length_dumpRegs] at hk
  have hk15 : (⟨k, by omega⟩ : RegIdx) ≠ 15 := Fin.ne_of_val_ne (show k ≠ 15 by have := x.isLt; omega)
  simpa [State.dumpRegs, State.getV] using h.regs _ hk15

theorem ne_vf_of_two {x y : RegIdx} (h : (x == 15 || y == 15) = false) : x ≠ 15 ∧ y ≠ 15 := by simpa using h

/-- An instruction on two states that agree but for VF, which it does not name, answers two such states. -/
theorem exec_sameButVf {i : Instr} (hname : namesVf i = false) {s u : State} (h : SameButVf s u) :
    ∃ t, exec i s = .next t ∧ ∃ t', exec i u = .next t' ∧ SameButVf t t' := by
  obtain ⟨w, rfl⟩ := h.withV
  cases i with
  | cls | jp | ldI => exact ⟨_, rfl, _, rfl, h.of_kept rfl rfl rfl⟩
  | sys | unknown => exact ⟨_, rfl, _, rfl, h.raiseFatal _ _⟩
  | ret =>
    refine ⟨_, exec_ret_eq _, _, exec_ret_eq _, ?_⟩
    dsimp only
    cases s.stack.getLast? with
    | some a => exact h.of_kept rfl rfl rfl
    | none => exact h.raiseFatal _ _
  | call nnn =>
    refine ⟨_, exec_call_eq _ _, _, exec_call_eq _ _, .ite (h.raiseFatal _ _) ?_ _⟩
    exact h.of_kept rfl rfl rfl
  | jpV0 nnn =>
    refine ⟨_, rfl, _, rfl, ?_⟩
    rw [State.offsetTarget, State.offsetTarget, h.regs 0 (by decide)]
    exact h.of_kept rfl rfl rfl
  | seVxKk x kk | sneVxKk x kk =>
    refine ⟨_, rfl, _, rfl, ?_⟩
    rw [h.regs x (ne_of_beq_false hname)]
    exact h.skipIf _
  | seVxVy x y n | sneVxVy x y n =>
    obtain ⟨hx, hy⟩ := ne_vf_of_two hname
    refine ⟨_, rfl, _, rfl, ?_⟩
    rw [h.regs x hx, h.regs y hy]
    exact h.skipIf _
  | skp x | sknp x =>
    refine ⟨_, rfl, _, rfl, ?_⟩
    rw [h.keyMatches_eq (ne_of_beq_false hname)]
    exact h.skipIf _
  | ldVxKk x kk | addVxKk x kk =>
    refine ⟨_, rfl, _, rfl, ?_⟩
    rw [h.regs x (ne_of_beq_false hname)]
    exact h.alu _ _ _ _
  | or x y | and x y | xor x y | addVxVy x y | sub x y | shr x y | subn x y | shl x y | ldVxVy x y =>
    obtain ⟨hx, hy⟩ := ne_vf_of_two hname
    refine ⟨_, rfl, _, rfl, ?_⟩
    rw [h.regs x hx, h.regs y hy]
    exact h.alu _ _ _ _
  | rnd | ldVxDt => exact ⟨_, rfl, _, rfl, (h.setV _ _).advance⟩
  | ldVxK x => exact ⟨_, rfl, _, rfl, .ite (h.setV _ _).advance h _⟩
  | addIVx x | ldFVx x | ldDtVx x | ldStVx x =>
    refine ⟨_, rfl, _, rfl, ?_⟩
    rw [h.regs x (ne_of_beq_false hname)]
    exact h.of_kept rfl rfl rfl
  | drw x y n =>
    obtain ⟨hx, hy⟩ := ne_vf_of_two hname
    refine ⟨_, exec_drw_eq _ _ _ _, _, exec_drw_eq _ _ _ _, ?_⟩
    rw [h.regs x hx, h.regs y hy]
    refine .ite (SameButVf.advance (.setV ?_ _ _)) (h.raiseFatal _ _) _
    exact h.of_kept rfl rfl rfl
  | ldBVx x =>
    refine ⟨_, exec_ldBVx_eq _ _, _, exec_ldBVx_eq _ _, ?_⟩
    rw [h.regs x (ne_of_beq_false hname)]
    refine .ite ?_ (h.raiseFatal _ _) _
    exact h.of_kept rfl rfl rfl
  | ldMemVx x =>
    refine ⟨_, exec_ldMemVx_eq _ _, _, exec_ldMemVx_eq _ _, ?_⟩
    rw [h.dumpRegs_eq (ne_of_beq_false hname)]
    refine .ite ?_ (h.raiseFatal _ _) _
    exact h.of_kept rfl rfl rfl
  | ldVxMem x =>
    exact ⟨_, exec_ldVxMem_eq _ _, _, exec_ldVxMem_eq _ _, .ite (h.loadRegs _ _).advance (h.raiseFatal _ _) _⟩

/-- Settles O36: the state with another VF agrees with the old one but for VF. -/
theorem vfNeverReadImplicitly : Obligations.VfNeverReadImplicitly := by
  intro i s t b hname hexec
  obtain ⟨u, hu, hsame⟩ := exec_next_elim (exec_sameButVf hname (sameButVf_setV s b)) hexec
  exact ⟨u, hu, hsame.frame, hsame.regs⟩

end Sys2Proof.Machine

/-! The encoder undoes the decoder (30_encoding.md R85): no bit of a word is dropped. -/

namespace Sys2Proof

/-- Outside category 0x0 an UNKNOWN word is kept whole. -/
theorem encode_instrOf_unknown {op : Word} (hc : fieldC op ≠ 0x0#4) :
    encode (instrOf { dec op with tag := .unknown } op) = op := by
  rw [instrOf, if_neg hc, encode]

theorem encode_instrOf_decTag0 {op : Word} (hc : fieldC op = 0x0#4) :
    encode (instrOf { dec op with tag := decTag0 (fieldNnn op) } op) = op := by
  have hword := wordCNnn_fields op
  rw [hc] at hword
  unfold decTag0
  split
  · next hn => rw [hn] at hword; exact hword
  · next hn => rw [hn] at hword; exact hword
  · rw [instrOf, if_pos hc, encode]; exact hword

theorem encode_instrOf_decTag8 {op : Word} (hc : fieldC op = 0x8#4) :
    encode (instrOf { dec op with tag := decTag8 (fieldN op) } op) = op := by
  have hword := wordCXYN_fields op
  rw [hc] at hword
  unfold decTag8
  split
  case h_10 => exact encode_instrOf_unknown (by rw [hc]; decide)
  all_goals
    next hn => rw [hn] at hword; exact hword

theorem encode_instrOf_decTagE {op : Word} (hc : fieldC op = 0xE#4) :
    encode (instrOf { dec op with tag := decTagE (fieldKk op) } op) = op := by
  have hword := wordCXKk_fields op
  rw [hc] at hword
  unfold decTagE
  split
  case h_3 => exact encode_instrOf_unknown (by rw [hc]; decide)
  all_goals
    next hkk => rw [hkk] at hword; exact hword

theorem encode_instrOf_decTagF {op : Word} (hc : fieldC op = 0xF#4) :
    encode (instrOf { dec op with tag := decTagF (fieldKk op) } op) = op := by
  have hword := wordCXKk_fields op
  rw [hc] at hword
  unfold decTagF
  split
  case h_10 => exact encode_instrOf_unknown (by rw [hc]; decide)
  all_goals
    next hkk => rw [hkk] at hword; exact hword

/-- The last arm of the decoder's match on the category is category 0xF. -/
theorem eq_categoryF_of_ne {c : Nibble} (h : c ≠ 0x0#4 ∧ c ≠ 0x1#4 ∧ c ≠ 0x2#4 ∧ c ≠ 0x3#4 ∧ c ≠ 0x4#4 ∧ c ≠ 0x5#4 ∧
    c ≠ 0x6#4 ∧ c ≠ 0x7#4 ∧ c ≠ 0x8#4 ∧ c ≠ 0x9#4 ∧ c ≠ 0xA#4 ∧ c ≠ 0xB#4 ∧ c ≠ 0xC#4 ∧ c ≠ 0xD#4 ∧ c ≠ 0xE#4) :
    c = 0xF#4 := by
  revert c
  decide

theorem encode_decodeWord (op : Word) : encode (decodeWord op) = op := by
  have hNnn := wordCNnn_fields op
  have hXKk := wordCXKk_fields op
  have hXYN := wordCXYN_fields op
  show encode (instrOf { dec op with tag := decTag op } op) = op
  unfold decTag
  split
  case h_1 hc => exact encode_instrOf_decTag0 hc
  case h_9 hc => exact encode_instrOf_decTag8 hc
  case h_15 hc => exact encode_instrOf_decTagE hc
  case h_16 => exact encode_instrOf_decTagF (eq_categoryF_of_ne (by tauto))
  case h_2 hc | h_3 hc | h_11 hc | h_12 hc => rw [hc] at hNnn; exact hNnn
  case h_4 hc | h_5 hc | h_7 hc | h_8 hc | h_13 hc => rw [hc] at hXKk; exact hXKk
  case h_6 hc | h_10 hc | h_14 hc => rw [hc] at hXYN; exact hXYN

end Sys2Proof

/-! Timers rise only where an instruction sets them (10_state.md R27). -/

namespace Sys2Proof.Machine

theorem countDown_le (b : Byte) : countDown b ≤ b := by
  have := b.isLt
  rw [BitVec.le_def, countDown, trunc8, BitVec.toNat_ofNat]
  omega

/-- An instruction that changes DT or ST is the one that sets it. -/
theorem eq_encode_of_dt_ne {s t : State} {op : Word} (hexec : exec (decodeWord op) s = .next t) (h : t.dt ≠ s.dt) :
    ∃ x, op = encode (.ldDtVx x) := by
  obtain ⟨-, -, hdt, -⟩ := onlyTheseWriteSpecialState _ _ _ hexec
  obtain ⟨x, hx⟩ := hdt h
  exact ⟨x, by rw [← hx, encode_decodeWord]⟩

theorem eq_encode_of_st_ne {s t : State} {op : Word} (hexec : exec (decodeWord op) s = .next t) (h : t.st ≠ s.st) :
    ∃ x, op = encode (.ldStVx x) := by
  obtain ⟨-, -, -, hst, -⟩ := onlyTheseWriteSpecialState _ _ _ hexec
  obtain ⟨x, hx⟩ := hst h
  exact ⟨x, by rw [← hx, encode_decodeWord]⟩

/-- Settles O56: a timer tick counts down, a display tick and a fatal error keep both timers, and an instruction that changes one
is the one that sets it. -/
theorem timersRiseOnlyWhenSet : Obligations.TimersRiseOnlyWhenSet := by
  intro s t hstep
  cases step_cases hstep with
  | halted hhalt => exact ⟨fun h => absurd h (BitVec.lt_irrefl _), fun h => absurd h (BitVec.lt_irrefl _)⟩
  | fetchFault hrun key rand htick f hfetch => simp
  | instruction hrun key rand htick op hfetch t hexec =>
    refine ⟨fun hlt => ⟨hrun, by rw [htick]; rfl, ?_⟩, fun hlt => ⟨hrun, by rw [htick]; rfl, ?_⟩⟩
    · obtain ⟨x, rfl⟩ := eq_encode_of_dt_ne hexec (by rw [State.sample_dt, State.strobe_dt]; exact (BitVec.ne_of_lt hlt).symm)
      exact ⟨x, hfetch⟩
    · obtain ⟨x, rfl⟩ := eq_encode_of_st_ne hexec (by rw [State.sample_st, State.strobe_st]; exact (BitVec.ne_of_lt hlt).symm)
      exact ⟨x, hfetch⟩
  | timer hrun htick =>
    exact ⟨fun h => absurd h (BitVec.not_lt.2 (countDown_le _)), fun h => absurd h (BitVec.not_lt.2 (countDown_le _))⟩
  | display hrun htick => simp

end Sys2Proof.Machine

/-! A step that is a CPU tick, and a fatal error on an address beyond memory (20_memory.md R52, R53). -/

namespace Sys2Proof.Machine

open Sys2Proof.Safety

/-- The strobe taken is the oldest of the schedule, or a free draw where there is none. -/
theorem State.strobe_eq (s : State) :
    s.strobe = { s with
      schedule := s.schedule.tail
      draws := if s.schedule = [] then s.draws + 1 else s.draws } := by
  cases hsched : s.schedule with
  | nil => simp [(s.nextTick_nil hsched).2, hsched]
  | cons t rest => simp [(s.nextTick_cons t rest hsched).2]

/-- A step of a running core on a CPU tick: fetch, then the fatal error or the instruction, with the strobe taken and the ports
sampled. -/
theorem step_of_cpuTick {s : State} {key : KeySample} {rand : Byte} (hrun : s.halted = false)
    (htick : s.nextTick = .cpu key rand) : step s = (s.strobe.sample key rand).runFetched s.fetch := by
  rw [step, hrun, if_neg Bool.false_ne_true, htick, tick, cpuTick, s.strobe_halted, hrun, if_neg Bool.false_ne_true,
    s.fetch_sample_strobe]

theorem trunc16_firstBeyond (w : Word) : trunc16 (firstBeyond w.toNat) = if w.toNat < 0x1000 then 0x1000#16 else w := by
  unfold firstBeyond
  split
  · rfl
  · exact BitVec.ofNat_toNat 16 w

/-- The diagnostic of an access that starts at `w` and reaches beyond memory (60_exceptions.md R261, R262). -/
theorem State.raiseFatal_firstBeyond (s : State) (w op : Word) :
    s.raiseFatal (.memoryOutOfRange (firstBeyond w.toNat)) op = { s with
      halted := true
      fatalCause := 4#3
      fatalOpcode := op
      fatalPc := s.pc
      fatalAddr := if w.toNat < 0x1000 then 0x1000#16 else w } := by
  rw [State.raiseFatal, Fault.address, trunc16_firstBeyond]
  rfl

/-- A fetch that reaches beyond memory starts inside it in one way alone: on the last byte. -/
theorem toNat_lt_memory_iff {pc : Word} (hpc : 0x1000 ≤ pc.toNat + 1) : pc.toNat < 0x1000 ↔ pc = 0xFFF#16 := by
  rw [BitVec.toNat_eq, show (0xFFF#16).toNat = 0xFFF from rfl]
  omega

/-- Settles O9: the step is the fetch's own fatal error, on the state with the strobe taken and the ports sampled. -/
theorem fetchBeyondMemoryHalts : Obligations.FetchBeyondMemoryHalts := by
  intro s key rand hrun htick hpc
  have hfetch : s.fetch = .error (.memoryOutOfRange (firstBeyond s.pc.toNat)) := by
    rw [State.fetch_eq, if_neg (Nat.not_lt.2 hpc)]
  rw [step_of_cpuTick hrun htick, hfetch, State.runFetched, State.raiseFatal_firstBeyond, State.strobe_eq]
  simp only [toNat_lt_memory_iff hpc]
  rfl

end Sys2Proof.Machine

/-! An instruction placed by `withFetchWord` (log entry 8). -/

namespace Sys2Proof.Machine

/-- The word that a table row's bits stand for. -/
theorem decodeWord_of_decodeTableWord {nbits w : Nat} {i : Instr} (h : decodeTableWord nbits w = some i) :
    decodeWord (BitVec.ofNat 16 (w % 2 ^ nbits)) = i := by
  have hdecode := decode_wordBytes (BitVec.ofNat 16 (w % 2 ^ nbits)) []
  rw [List.append_nil] at hdecode
  rw [decodeTableWord, hdecode] at h
  exact Option.some.inj h

/-- With the strobes before the next CPU tick dropped, a CPU tick comes next. -/
theorem exists_nextTick_cpu {s : State} {ticks : List Tick} (h : s.schedule = dropToCpu ticks) :
    ∃ key rand, s.nextTick = .cpu key rand := by
  induction ticks with
  | nil => exact ⟨_, _, (s.nextTick_nil h).1⟩
  | cons t rest ih =>
    cases t with
    | cpu key rand => exact ⟨key, rand, (s.nextTick_cons _ _ h).1⟩
    | timer | display => exact ih h

/-- The two bytes of a word stored at `a` read back as that word. -/
theorem Memory.read_fill_wordBytes (m : Memory) (a : Nat) (op : Word) :
    ((m.fill a (wordBytes op)).read a ++ (m.fill a (wordBytes op)).read (a + 1) : Word) = op := by
  rw [Memory.read_fill, Memory.read_fill]
  simpa [wordBytes] using wordBytes_append op

/-- The PC of a placed instruction names a whole word of memory. -/
theorem State.withFetchWord_pc_inside (s : State) (nbits w : Nat) : (s.withFetchWord nbits w).pc.toNat + 1 < 0x1000 := by
  unfold State.withFetchWord
  dsimp only
  split
  · assumption
  · decide

theorem State.fetch_withFetchWord (s : State) (nbits w : Nat) :
    (s.withFetchWord nbits w).fetch = .ok (BitVec.ofNat 16 (w % 2 ^ nbits)) := by
  rw [State.fetch_eq, if_pos (s.withFetchWord_pc_inside nbits w)]
  exact congrArg Except.ok (Memory.read_fill_wordBytes ..)

/-- Settles O17: a CPU tick comes next, and it fetches the word stored at PC. -/
theorem placedWordRunsNext : Obligations.PlacedWordRunsNext := by
  intro s nbits w i hi
  obtain ⟨key, rand, htick⟩ := exists_nextTick_cpu (s := s.withFetchWord nbits w) rfl
  refine ⟨key, rand, ?_⟩
  rw [step_of_cpuTick rfl htick, s.fetch_withFetchWord, State.runFetched, decodeWord_of_decodeTableWord hi,
    State.strobe_eq]
  rfl

end Sys2Proof.Machine

/-! The blocks at I (20_memory.md R52, R55, R60). -/

namespace Sys2Proof.Machine

open Sys2Proof.Safety

/-- Settles O43: each block instruction answers the fatal error at the first address beyond memory. -/
theorem blocksBeyondMemoryHalt : Obligations.BlocksBeyondMemoryHalt := by
  intro i s hblock
  rw [← State.raiseFatal_firstBeyond]
  obtain ⟨x, rfl, hout⟩ | ⟨x, rfl | rfl, hout⟩ | ⟨x, y, n, rfl, hn, hout⟩ := hblock
  · rw [exec_ldBVx_eq, State.base, if_neg (by omega)]
  · rw [exec_ldMemVx_eq, State.base, if_neg (Nat.not_lt.2 hout)]
  · rw [exec_ldVxMem_eq, State.base, if_neg (Nat.not_lt.2 hout)]
  · rw [exec_drw_eq, State.base, if_neg (not_or.2 ⟨hn, Nat.not_le.2 hout⟩)]

/-- A run of bytes changes memory only where it is written. -/
theorem Memory.mem_range_of_read_fill_ne {m : Memory} {a k : Nat} {bs : List Byte}
    (h : (m.fill a bs).read k ≠ m.read k) : a ≤ k ∧ k < a + bs.length := by
  by_contra hout
  exact h (by rw [Memory.read_fill, if_neg hout])

/-- Settles O44: outside LD B and LD [I] the footprint holds no memory, and those two write one run of bytes at I. -/
theorem onlyStoresWriteMemory : Obligations.OnlyStoresWriteMemory := by
  intro i s t a hexec hread
  obtain ⟨f, rfl⟩ | hfoot := within_of_exec hexec
  · exact absurd rfl hread
  cases i with
  | ldBVx x =>
    rw [exec_ldBVx_eq] at hexec
    obtain rfl := Host.Outcome.next.inj hexec
    split at hread
    · obtain ⟨hlow, hhigh⟩ := Memory.mem_range_of_read_fill_ne hread
      exact .inl ⟨x, rfl, hlow, Nat.le_of_lt_succ hhigh⟩
    · exact absurd rfl hread
  | ldMemVx x =>
    rw [exec_ldMemVx_eq] at hexec
    obtain rfl := Host.Outcome.next.inj hexec
    split at hread
    · obtain ⟨hlow, hhigh⟩ := Memory.mem_range_of_read_fill_ne hread
      rw [State.length_dumpRegs] at hhigh
      exact .inr ⟨x, rfl, hlow, Nat.le_of_lt_succ hhigh⟩
    · exact absurd rfl hread
  | _ => exact absurd (by rw [hfoot]; rfl) hread

/-- A fetch inside memory reads its two bytes from what memory holds. -/
theorem State.fetch_eq_of_read {u : State} {byte : Nat → Byte} (hpc : u.pc.toNat + 1 < 0x1000)
    (hread : ∀ a, u.mem.read a = byte a) : u.fetch = .ok (byte u.pc.toNat ++ byte (u.pc.toNat + 1)) := by
  rw [State.fetch_eq, if_pos hpc, hread, hread]

/-- Memory after a register dump that completes. -/
theorem read_of_exec_ldMemVx {x : RegIdx} {s t : State} (hin : s.base + x.val < 0x1000)
    (hexec : exec (.ldMemVx x) s = .next t) (a : Nat) : t.mem.read a = dumpedByte x s a := by
  rw [exec_ldMemVx_eq, if_pos hin] at hexec
  obtain rfl := Host.Outcome.next.inj hexec
  exact Memory.read_fill_dump s x a

/-- Memory after a BCD store that completes. -/
theorem read_of_exec_ldBVx {x : RegIdx} {s t : State} (hin : s.base + 2 < 0x1000)
    (hexec : exec (.ldBVx x) s = .next t) (a : Nat) : t.mem.read a = digitByte x s a := by
  rw [exec_ldBVx_eq, if_pos (Nat.succ_le_of_lt hin)] at hexec
  obtain rfl := Host.Outcome.next.inj hexec
  exact Memory.read_fill_digits s x a

/-- Settles O45: the fetch reads the memory the store left, byte by byte. -/
theorem storeSeenByNextFetch : Obligations.StoreSeenByNextFetch := by
  intro x s t u hmem hpc
  constructor
  · intro hin hexec
    exact State.fetch_eq_of_read hpc fun a => by rw [hmem, read_of_exec_ldMemVx hin hexec]
  · intro hin hexec
    exact State.fetch_eq_of_read hpc fun a => by rw [hmem, read_of_exec_ldBVx hin hexec]

end Sys2Proof.Machine

/-! The tag by category (30_encoding.md R73–R77), where the category has a secondary field. -/

namespace Sys2Proof

theorem decTag_of_category0 {op : Word} (hc : fieldC op = 0x0#4) : decTag op = decTag0 (fieldNnn op) := by
  unfold decTag; rw [hc]; rfl

theorem decTag_of_category8 {op : Word} (hc : fieldC op = 0x8#4) : decTag op = decTag8 (fieldN op) := by
  unfold decTag; rw [hc]; rfl

theorem decTag_of_categoryE {op : Word} (hc : fieldC op = 0xE#4) : decTag op = decTagE (fieldKk op) := by
  unfold decTag; rw [hc]; rfl

theorem decTag_of_categoryF {op : Word} (hc : fieldC op = 0xF#4) : decTag op = decTagF (fieldKk op) := by
  unfold decTag; rw [hc]; rfl

theorem decTag0_eq_unknown_iff {nnn : Addr12} : decTag0 nnn = .unknown ↔ nnn ≠ 0x0E0#12 ∧ nnn ≠ 0x0EE#12 := by
  unfold decTag0
  split
  case h_1 => decide
  case h_2 => decide
  case h_3 hcls hret => exact ⟨fun _ => ⟨hcls, hret⟩, fun _ => rfl⟩

end Sys2Proof

/-! The opcode map by category (30_encoding.md R85). A row of another category is never selected, and the rows of one category
test no bits but the category and its secondary field: the map gives a word the tag of the word with all other bits cleared. -/

namespace Sys2Proof

/-- Masking with a mask that holds the category keeps the category. -/
theorem fieldC_and_of_mask {m : Word} (hm : fieldC m = 0xF#4) (op : Word) : fieldC (op &&& m) = fieldC op := by
  have hand : fieldC (op &&& m) = fieldC op &&& fieldC m := BitVec.extractLsb'_and
  rw [hand, hm]
  exact BitVec.and_allOnes

theorem category_of_selects {r : MapRow} {op : Word} (hr : r ∈ opcodeMap) (hsel : r.selects op = true) :
    fieldC r.value = fieldC op := by
  have hmask : ∀ r ∈ opcodeMap, fieldC r.mask = 0xF#4 := by decide
  rw [← eq_of_beq hsel, fieldC_and_of_mask (hmask r hr)]

/-- Clearing bits that no row of the word's category tests changes no row's selection. -/
theorem selects_and {r : MapRow} {op m : Word} (hr : r ∈ opcodeMap) (hm : fieldC m = 0xF#4)
    (hrow : fieldC r.value = fieldC op → m &&& r.mask = r.mask) : r.selects (op &&& m) = r.selects op := by
  by_cases hc : fieldC r.value = fieldC op
  · rw [MapRow.selects, BitVec.and_assoc, hrow hc, MapRow.selects]
  · have hmasked : fieldC r.value ≠ fieldC (op &&& m) := by rwa [fieldC_and_of_mask hm]
    rw [Bool.eq_false_iff.mpr fun h => hc (category_of_selects hr h),
      Bool.eq_false_iff.mpr fun h => hmasked (category_of_selects hr h)]

theorem mapTag_and {op m : Word} (hm : fieldC m = 0xF#4)
    (hrows : ∀ r ∈ opcodeMap, fieldC r.value = fieldC op → m &&& r.mask = r.mask) : mapTag (op &&& m) = mapTag op := by
  rw [mapTag, List.find?_congr fun r hr => selects_and hr hm (hrows r hr), mapTag]

theorem and_maskC (op : Word) : op &&& 0xF000#16 = wordCNnn (fieldC op) 0#12 := by
  have hones (c : Nibble) : c &&& 0xF#4 = c := BitVec.and_allOnes
  calc op &&& 0xF000#16 = wordCNnn (fieldC op) (fieldNnn op) &&& wordCNnn 0xF#4 0#12 := by rw [wordCNnn_fields]; rfl
    _ = wordCNnn (fieldC op) 0#12 := by
        unfold wordCNnn
        rw [BitVec.and_append, hones, BitVec.and_zero]

theorem and_maskCN (op : Word) : op &&& 0xF00F#16 = wordCXYN (fieldC op) 0 0 (fieldN op) := by
  have hones (v : Nibble) : v &&& 0xF#4 = v := BitVec.and_allOnes
  have hzero (x : RegIdx) : BitVec.ofFin (w := 4) x &&& BitVec.ofFin (w := 4) 0 = BitVec.ofFin 0 := BitVec.and_zero
  calc op &&& 0xF00F#16
      = wordCXYN (fieldC op) (fieldX op) (fieldY op) (fieldN op) &&& wordCXYN 0xF#4 0 0 0xF#4 := by
        rw [wordCXYN_fields]; rfl
    _ = wordCXYN (fieldC op) 0 0 (fieldN op) := by
        unfold wordCXYN
        rw [BitVec.and_append, BitVec.and_append, BitVec.and_append, hones, hones, hzero, hzero]

theorem and_maskCKk (op : Word) : op &&& 0xF0FF#16 = wordCXKk (fieldC op) 0 (fieldKk op) := by
  have hones (c : Nibble) : c &&& 0xF#4 = c := BitVec.and_allOnes
  have hones' (kk : Byte) : kk &&& 0xFF#8 = kk := BitVec.and_allOnes
  have hzero (x : RegIdx) : BitVec.ofFin (w := 4) x &&& BitVec.ofFin (w := 4) 0 = BitVec.ofFin 0 := BitVec.and_zero
  calc op &&& 0xF0FF#16
      = wordCXKk (fieldC op) (fieldX op) (fieldKk op) &&& wordCXKk 0xF#4 0 0xFF#8 := by rw [wordCXKk_fields]; rfl
    _ = wordCXKk (fieldC op) 0 (fieldKk op) := by
        unfold wordCXKk
        rw [BitVec.and_append, BitVec.and_append, hones, hones', hzero]

end Sys2Proof

/-! The decoder against the map, category by category (30_encoding.md R73–R78, R85). -/

namespace Sys2Proof

/-- A category whose rows test nothing else. -/
theorem mapTag_of_category {op : Word} {c : Nibble} (hc : fieldC op = c)
    (hrows : ∀ r ∈ opcodeMap, fieldC r.value = c → r.mask = 0xF000#16) : mapTag op = mapTag (wordCNnn c 0#12) := by
  subst hc
  rw [← and_maskC, mapTag_and rfl fun r hr h => by rw [hrows r hr h]; rfl]

theorem mapTag_of_category0 {op : Word} (hc : fieldC op = 0x0#4) : mapTag op = decTag0 (fieldNnn op) := by
  have hword := wordCNnn_fields op
  rw [hc] at hword
  by_cases hcls : fieldNnn op = 0x0E0#12
  · rw [← hword, hcls]; decide
  by_cases hret : fieldNnn op = 0x0EE#12
  · rw [← hword, hret]; decide
  rw [decTag0_eq_unknown_iff.mpr ⟨hcls, hret⟩]
  have hrows : ∀ r ∈ opcodeMap, fieldC r.value = 0x0#4 →
      r.mask = 0xFFFF#16 ∧ (fieldNnn r.value = 0x0E0#12 ∨ fieldNnn r.value = 0x0EE#12) ∨ r.tag = .unknown := by decide
  unfold mapTag
  split
  case h_2 => rfl
  case h_1 r hfind =>
    have hr := List.mem_of_find?_eq_some hfind
    have hsel : r.selects op = true := by simpa using List.find?_some hfind
    obtain ⟨hmask, hvalue⟩ | htag := hrows r hr ((category_of_selects hr hsel).trans hc)
    · have hop : op = r.value := by
        rw [← eq_of_beq hsel, hmask]
        exact BitVec.and_allOnes.symm
      rw [← hop] at hvalue
      exact absurd hvalue (not_or.mpr ⟨hcls, hret⟩)
    · exact htag

theorem mapTag_of_category8 {op : Word} (hc : fieldC op = 0x8#4) : mapTag op = decTag8 (fieldN op) := by
  have hmap : ∀ n : Nibble, mapTag (wordCXYN 0x8#4 0 0 n) = decTag8 n := by decide
  rw [← mapTag_and (m := 0xF00F#16) rfl (by rw [hc]; decide), and_maskCN, hc, hmap]

theorem mapTag_of_categoryE {op : Word} (hc : fieldC op = 0xE#4) : mapTag op = decTagE (fieldKk op) := by
  have hmap : ∀ kk : Byte, mapTag (wordCXKk 0xE#4 0 kk) = decTagE kk := by decide +kernel
  rw [← mapTag_and (m := 0xF0FF#16) rfl (by rw [hc]; decide), and_maskCKk, hc, hmap]

theorem mapTag_of_categoryF {op : Word} (hc : fieldC op = 0xF#4) : mapTag op = decTagF (fieldKk op) := by
  have hmap : ∀ kk : Byte, mapTag (wordCXKk 0xF#4 0 kk) = decTagF kk := by decide +kernel
  rw [← mapTag_and (m := 0xF0FF#16) rfl (by rw [hc]; decide), and_maskCKk, hc, hmap]

theorem decTag_eq_mapTag (op : Word) : decTag op = mapTag op := by
  unfold decTag
  split
  case h_1 hc => exact (mapTag_of_category0 hc).symm
  case h_9 hc => exact (mapTag_of_category8 hc).symm
  case h_15 hc => exact (mapTag_of_categoryE hc).symm
  case h_16 => exact (mapTag_of_categoryF (eq_categoryF_of_ne (by tauto))).symm
  all_goals
    next hc => rw [mapTag_of_category hc (by decide)]; rfl

/-- Settles O3: category by category, the map gives the tag the decoder reads from the secondary field. -/
theorem decoderAgreesWithOpcodeMap : Obligations.DecoderAgreesWithOpcodeMap := decTag_eq_mapTag

/-- A word that selects no row of the map has the tag UNKNOWN and is outside category 0x0, whose words select the row SYS. -/
theorem not_selects_iff {op : Word} :
    (∀ r ∈ opcodeMap, ¬ r.selects op) ↔ fieldC op ≠ 0x0#4 ∧ decTag op = .unknown := by
  rw [decTag_eq_mapTag]
  constructor
  · intro hno
    refine ⟨fun hc => hno ⟨0xF000#16, 0x0000#16, .unknown⟩ (by decide) ?_, ?_⟩
    · rw [MapRow.selects, and_maskC, hc]; rfl
    · rw [mapTag, List.find?_eq_none.mpr hno]
  · rintro ⟨hc, htag⟩
    have hrows : ∀ r ∈ opcodeMap, r.tag = .unknown → fieldC r.value = 0x0#4 := by decide
    unfold mapTag at htag
    split at htag
    case h_1 r hfind =>
      have hr := List.mem_of_find?_eq_some hfind
      have hsel : r.selects op = true := by simpa using List.find?_some hfind
      exact absurd ((category_of_selects hr hsel).symm.trans (hrows r hr htag)) hc
    case h_2 hfind => exact List.find?_eq_none.mp hfind

theorem wf_unknown_iff {op : Word} : (Instr.unknown op).wf = true ↔ fieldC op ≠ 0x0#4 ∧ decTag op = .unknown := by
  rw [← not_selects_iff, Instr.wf, List.all_eq_true]
  simp

theorem wf_sys_iff {nnn : Addr12} : (Instr.sys nnn).wf = true ↔ decTag0 nnn = .unknown := by
  rw [decTag0_eq_unknown_iff, Instr.wf, Bool.and_eq_true, bne_iff_ne, bne_iff_ne]

end Sys2Proof

/-! The round trips (30_encoding.md R71, R85). -/

namespace Sys2Proof

/-- An UNKNOWN word is a SYS in category 0x0, and stands for itself elsewhere. -/
theorem decodeWord_of_unknown {op : Word} (htag : decTag op = .unknown) :
    decodeWord op = if fieldC op = 0x0#4 then .sys (fieldNnn op) else .unknown op := by
  simp only [decodeWord, instrOf, dec, htag]

/-- The fixed fields of the encoded word give the tag, its other fields are the operands. -/
theorem decodeWord_encode {i : Instr} (hwf : i.wf = true) : decodeWord (encode i) = i := by
  cases i with
  | cls | ret => rfl
  | sys nnn =>
    have hc : fieldC (encode (.sys nnn)) = 0x0#4 := fieldC_wordCNnn _ _
    have hnnn : fieldNnn (encode (.sys nnn)) = nnn := fieldNnn_wordCNnn _ _
    have htag : decTag (encode (.sys nnn)) = .unknown := by rw [decTag_of_category0 hc, hnnn, wf_sys_iff.mp hwf]
    rw [decodeWord_of_unknown htag, if_pos hc, hnnn]
  | unknown op =>
    obtain ⟨hc, htag⟩ := wf_unknown_iff.mp hwf
    rw [encode, decodeWord_of_unknown htag, if_neg hc]
  | or | and | xor | addVxVy | sub | shr | subn | shl | ldVxVy => simp [decodeWord, instrOf, dec, decTag, decTag8, encode]
  | skp | sknp => simp [decodeWord, instrOf, dec, decTag, decTagE, encode]
  | ldVxDt | ldDtVx | ldStVx | ldVxK | addIVx | ldFVx | ldBVx | ldMemVx | ldVxMem =>
    simp [decodeWord, instrOf, dec, decTag, decTagF, encode]
  | _ => simp [decodeWord, instrOf, dec, decTag, encode]

/-- Settles O1: the bytes decode as their word, and the word of a well-formed instruction decodes to it. -/
theorem decodeEncodeRoundTrip : Obligations.DecodeEncodeRoundTrip := by
  intro i rest hwf
  rw [encodeBytes, decode_wordBytes, decodeWord_encode hwf]

theorem wf_instrOf_of_tag_ne_unknown {d : DecOut} (h : d.tag ≠ .unknown) (op : Word) : (instrOf d op).wf = true := by
  unfold instrOf
  split
  case h_35 hunknown => exact absurd hunknown h
  all_goals rfl

theorem wf_decodeWord (op : Word) : (decodeWord op).wf = true := by
  by_cases htag : decTag op = .unknown
  · rw [decodeWord_of_unknown htag]
    split
    · next hc => rw [wf_sys_iff, ← decTag_of_category0 hc, htag]
    · next hc => exact wf_unknown_iff.mpr ⟨hc, htag⟩
  · exact wf_instrOf_of_tag_ne_unknown htag op

/-- Settles O2: the decoder loses no bit, and its instruction is well-formed because it agrees with the map on the words that
select no row. -/
theorem encodeDecodeRoundTrip : Obligations.EncodeDecodeRoundTrip :=
  fun op => ⟨encode_decodeWord op, wf_decodeWord op⟩

end Sys2Proof

/-! The fields of a word as arithmetic on its value (30_encoding.md R71). -/

namespace Sys2Proof

theorem toNat_fieldC (op : Word) : (fieldC op).toNat = op.toNat / 4096 := by
  have := op.isLt
  rw [fieldC, BitVec.extractLsb'_toNat, Nat.shiftRight_eq_div_pow]
  omega

theorem val_fieldX (op : Word) : (fieldX op).val = op.toNat / 256 % 16 := by
  rw [← Nat.shiftRight_eq_div_pow op.toNat 8]; rfl

theorem val_fieldY (op : Word) : (fieldY op).val = op.toNat / 16 % 16 := by
  rw [← Nat.shiftRight_eq_div_pow op.toNat 4]; rfl

theorem toNat_fieldN (op : Word) : (fieldN op).toNat = op.toNat % 16 := rfl

theorem toNat_fieldKk (op : Word) : (fieldKk op).toNat = op.toNat % 256 := rfl

theorem toNat_fieldNnn (op : Word) : (fieldNnn op).toNat = op.toNat % 4096 := rfl

/-- Settles O4: each field is a quotient or a remainder of the word. -/
theorem decoderDrivesEveryField : Obligations.DecoderDrivesEveryField := by
  intro op
  have hx := val_fieldX op
  have hy := val_fieldY op
  have hn := toNat_fieldN op
  have hkk := toNat_fieldKk op
  have hnnn := toNat_fieldNnn op
  refine ⟨toNat_fieldC op, hx, hy, hn, ?_, ?_⟩
  · show (fieldKk op).toNat = (fieldY op).val * 16 + (fieldN op).toNat
    omega
  · show (fieldNnn op).toNat = (fieldX op).val * 256 + (fieldKk op).toNat
    omega

/-- Settles O6: each word is run through the decoder. -/
theorem specWordsDecode : Obligations.SpecWordsDecode := by
  unfold Obligations.SpecWordsDecode
  decide

end Sys2Proof

/-! The number of UNKNOWN words, category by category (30_encoding.md R79). -/

namespace Sys2Proof

theorem countP_range_mul (a b : Nat) (p : Nat → Bool) :
    (List.range (a * b)).countP p = ((List.range a).map fun i => (List.range b).countP fun j => p (b * i + j)).sum := by
  induction a with
  | zero => simp
  | succ a ih =>
    rw [Nat.succ_mul, List.range_add, List.countP_append, List.countP_map, ih, List.range_succ, List.map_append,
      List.sum_append, List.map_singleton, List.sum_singleton, Nat.mul_comm a b]
    rfl

/-- A predicate of the remainder holds equally often in each of the `a` periods. -/
theorem countP_range_mod (a b : Nat) (p : Nat → Bool) :
    (List.range (a * b)).countP (fun w => p (w % b)) = a * (List.range b).countP p := by
  have hperiod (i : Nat) : (List.range b).countP (fun j => p ((b * i + j) % b)) = (List.range b).countP p :=
    List.countP_congr fun j hj => by rw [Nat.mul_add_mod, Nat.mod_eq_of_lt (List.mem_range.mp hj)]
  simp only [countP_range_mul, hperiod, List.map_const', List.length_range, List.sum_replicate_nat]

theorem fieldC_ofNat (w : Nat) : fieldC (BitVec.ofNat 16 w) = BitVec.ofNat 4 (w / 4096) := by
  apply BitVec.eq_of_toNat_eq
  rw [toNat_fieldC, BitVec.toNat_ofNat, BitVec.toNat_ofNat]
  omega

theorem fieldN_ofNat (w : Nat) : fieldN (BitVec.ofNat 16 w) = BitVec.ofNat 4 (w % 16) := by
  apply BitVec.eq_of_toNat_eq
  rw [toNat_fieldN, BitVec.toNat_ofNat, BitVec.toNat_ofNat]
  omega

theorem fieldKk_ofNat (w : Nat) : fieldKk (BitVec.ofNat 16 w) = BitVec.ofNat 8 (w % 256) := by
  apply BitVec.eq_of_toNat_eq
  rw [toNat_fieldKk, BitVec.toNat_ofNat, BitVec.toNat_ofNat]
  omega

theorem fieldNnn_ofNat (w : Nat) : fieldNnn (BitVec.ofNat 16 w) = BitVec.ofNat 12 (w % 4096) := by
  apply BitVec.eq_of_toNat_eq
  rw [toNat_fieldNnn, BitVec.toNat_ofNat, BitVec.toNat_ofNat]
  omega

/-- The word of category `c` whose low 12 bits are `r`. -/
def wordAt (c r : Nat) : Word := BitVec.ofNat 16 (4096 * c + r)

theorem fieldC_wordAt {r : Nat} (c : Nat) (hr : r ∈ List.range 4096) : fieldC (wordAt c r) = BitVec.ofNat 4 c := by
  rw [wordAt, fieldC_ofNat, Nat.mul_add_div (by decide), Nat.div_eq_of_lt (List.mem_range.mp hr), Nat.add_zero]

theorem fieldN_wordAt (c r : Nat) : fieldN (wordAt c r) = BitVec.ofNat 4 (r % 16) := by
  rw [wordAt, fieldN_ofNat, show (4096 * c + r) % 16 = r % 16 by omega]

theorem fieldKk_wordAt (c r : Nat) : fieldKk (wordAt c r) = BitVec.ofNat 8 (r % 256) := by
  rw [wordAt, fieldKk_ofNat, show (4096 * c + r) % 256 = r % 256 by omega]

/-- The UNKNOWN words of category `c`. -/
def countUnknown (c : Nat) : Nat := (List.range 4096).countP fun r => decide (decTag (wordAt c r) = .unknown)

theorem countUnknown_8 : countUnknown 8 = 256 * 7 := by
  calc countUnknown 8 = (List.range (256 * 16)).countP fun r => decide (decTag8 (BitVec.ofNat 4 (r % 16)) = .unknown) :=
        List.countP_congr fun r hr => by rw [decTag_of_category8 (fieldC_wordAt 8 hr), fieldN_wordAt]
    _ = 256 * (List.range 16).countP fun n => decide (decTag8 (BitVec.ofNat 4 n) = .unknown) :=
        countP_range_mod 256 16 fun n => decide (decTag8 (BitVec.ofNat 4 n) = .unknown)
    _ = 256 * 7 := by decide

theorem countUnknown_E : countUnknown 0xE = 16 * 254 := by
  calc countUnknown 0xE = (List.range (16 * 256)).countP fun r => decide (decTagE (BitVec.ofNat 8 (r % 256)) = .unknown) :=
        List.countP_congr fun r hr => by rw [decTag_of_categoryE (fieldC_wordAt 0xE hr), fieldKk_wordAt]
    _ = 16 * (List.range 256).countP fun kk => decide (decTagE (BitVec.ofNat 8 kk) = .unknown) :=
        countP_range_mod 16 256 fun kk => decide (decTagE (BitVec.ofNat 8 kk) = .unknown)
    _ = 16 * 254 := by decide +kernel

theorem countUnknown_F : countUnknown 0xF = 16 * 247 := by
  calc countUnknown 0xF = (List.range (16 * 256)).countP fun r => decide (decTagF (BitVec.ofNat 8 (r % 256)) = .unknown) :=
        List.countP_congr fun r hr => by rw [decTag_of_categoryF (fieldC_wordAt 0xF hr), fieldKk_wordAt]
    _ = 16 * (List.range 256).countP fun kk => decide (decTagF (BitVec.ofNat 8 kk) = .unknown) :=
        countP_range_mod 16 256 fun kk => decide (decTagF (BitVec.ofNat 8 kk) = .unknown)
    _ = 16 * 247 := by decide +kernel

theorem decTag_wordAt_0_eq_unknown_iff {r : Nat} (hr : r ∈ List.range 4096) :
    decTag (wordAt 0 r) = .unknown ↔ r ≠ 0x0E0 ∧ r ≠ 0x0EE := by
  have hlt := List.mem_range.mp hr
  rw [decTag_of_category0 (fieldC_wordAt 0 hr), decTag0_eq_unknown_iff, wordAt, fieldNnn_ofNat]
  simp only [ne_eq, ← BitVec.toNat_inj, BitVec.toNat_ofNat]
  omega

/-- All of category 0x0 but CLS and RET. -/
theorem countUnknown_0 : countUnknown 0 = 4096 - 1 - 1 := by
  have hnodup : (List.range 4096).Nodup := List.nodup_range
  calc countUnknown 0 = (List.range 4096).countP fun r => r != 0x0EE && r != 0x0E0 :=
        List.countP_congr fun r hr => by
          rw [decide_eq_true_iff, decTag_wordAt_0_eq_unknown_iff hr, Bool.and_eq_true, bne_iff_ne, bne_iff_ne, and_comm]
    _ = (((List.range 4096).erase 0x0E0).erase 0x0EE).length := by
        rw [List.countP_eq_length_filter, (hnodup.erase _).erase_eq_filter, hnodup.erase_eq_filter, List.filter_filter]
    _ = 4096 - 1 - 1 := by
        rw [List.length_erase_of_mem, List.length_erase_of_mem, List.length_range]
        · exact List.mem_range.mpr (by decide)
        · exact (List.mem_erase_of_ne (by decide)).mpr (List.mem_range.mpr (by decide))

theorem category_of_decTag_eq_unknown {op : Word} (h : decTag op = .unknown) :
    fieldC op = 0x0#4 ∨ fieldC op = 0x8#4 ∨ fieldC op = 0xE#4 ∨ fieldC op = 0xF#4 := by
  unfold decTag at h
  split at h
  case h_1 hc => exact .inl hc
  case h_9 hc => exact .inr (.inl hc)
  case h_15 hc => exact .inr (.inr (.inl hc))
  case h_16 => exact .inr (.inr (.inr (eq_categoryF_of_ne (by tauto))))
  all_goals exact Tag.noConfusion h

/-- Every word of the other categories has a tag (R78). -/
theorem countUnknown_of_single_tag {c : Nat} (hc : c < 16) (h0 : c ≠ 0) (h8 : c ≠ 8) (hE : c ≠ 0xE) (hF : c ≠ 0xF) :
    countUnknown c = 0 := by
  refine List.countP_eq_zero.mpr fun r hr htag => ?_
  have hcat := category_of_decTag_eq_unknown (of_decide_eq_true htag)
  simp only [fieldC_wordAt c hr, ← BitVec.toNat_inj, BitVec.toNat_ofNat] at hcat
  omega

/-- R79's four summands. -/
def unknownSummand : Nat → Nat
  | 0x0 => 4094
  | 0x8 => 1792
  | 0xE => 4064
  | 0xF => 3952
  | _ => 0

theorem countUnknown_eq_summand {c : Nat} (hc : c ∈ List.range 16) : countUnknown c = unknownSummand c := by
  unfold unknownSummand
  split
  case h_1 => exact countUnknown_0
  case h_2 => exact countUnknown_8
  case h_3 => exact countUnknown_E
  case h_4 => exact countUnknown_F
  case h_5 h0 h8 hE hF => exact countUnknown_of_single_tag (List.mem_range.mp hc) h0 h8 hE hF

/-- Settles O5: the words counted category by category. -/
theorem unknownWordCount : Obligations.UnknownWordCount := by
  refine (countP_range_mul 16 4096 _).trans ?_
  calc ((List.range 16).map countUnknown).sum = ((List.range 16).map unknownSummand).sum := by
        rw [List.map_congr_left fun c hc => countUnknown_eq_summand hc]
    _ = 13902 := by decide

end Sys2Proof

/-! The step (40_cycle_and_control.md R100, 70_reset_and_hazards.md R304): a next state always, and the decoded instruction on a
CPU tick. -/

namespace Sys2Proof.Machine

theorem exists_exec_next (i : Instr) (s : State) : ∃ t, exec i s = .next t := by
  obtain ⟨t, hexec, -⟩ := exec_within i s
  exact ⟨t, hexec⟩

/-- A CPU tick ends in the halted state it found, in the fetch's fatal error, or in an instruction. -/
theorem exists_cpuTick_next (key : KeySample) (rand : Byte) (s : State) : ∃ t, cpuTick key rand s = .next t := by
  unfold cpuTick
  split
  · exact ⟨s, rfl⟩
  · cases (s.sample key rand).fetch with
    | error f => exact ⟨_, rfl⟩
    | ok op => exact exists_exec_next (decodeWord op) _

theorem exists_tick_next (k : Tick) (s : State) : ∃ t, tick k s = .next t := by
  cases k with
  | cpu key rand => exact exists_cpuTick_next key rand s
  | timer => exact ⟨timerTick s, rfl⟩
  | display => exact ⟨displayTick s, rfl⟩

theorem exists_step_next (s : State) : ∃ t, step s = .next t := by
  unfold step
  split
  · exact ⟨s, rfl⟩
  · exact exists_tick_next s.nextTick s.strobe

/-- Settles O11: an instruction answers a next state, so a tick does, so a step does. -/
theorem everyStepAnswersNext : Obligations.EveryStepAnswersNext :=
  ⟨exists_exec_next, exists_tick_next, exists_step_next⟩

/-- Settles O7: the fetch is inside memory and reads the two bytes that decode to the instruction. -/
theorem stepRunsDecodedInstruction : Obligations.StepRunsDecodedInstruction := by
  intro s key rand i hrun htick hpc hdecode
  have hword : decodeWord (s.mem.read s.pc.toNat ++ s.mem.read (s.pc.toNat + 1)) = i :=
    congrArg Prod.fst (Except.ok.inj hdecode)
  rw [step_of_cpuTick hrun htick, State.fetch_eq, if_pos hpc, State.runFetched, hword, State.strobe_eq]
  rfl

end Sys2Proof.Machine

/-! Jumps and skips (40_cycle_and_control.md R102, R107–R112). -/

namespace Sys2Proof.Machine

/-- JP V0 adds V0 to its address, and the sum fits the PC. -/
theorem State.toNat_offsetTarget (s : State) (nnn : Addr12) :
    (s.offsetTarget nnn).toNat = nnn.toNat + (s.getV 0).toNat := by
  have hnnn := nnn.isLt
  have hv := (s.getV 0).isLt
  rw [State.offsetTarget, toNat_zext16, trunc16, BitVec.toNat_ofNat]
  omega

/-- Settles O18: the arm of JP is the one write of PC. -/
theorem jpSetsPc : Obligations.JpSetsPc := fun _ _ => rfl

/-- Settles O19: the target is a natural sum that needs no truncation. -/
theorem jpV0AddsRegisterZero : Obligations.JpV0AddsRegisterZero := by
  intro nnn s
  exact ⟨s.setPc (s.offsetTarget nnn), rfl, rfl, s.toNat_offsetTarget nnn⟩

/-- A skip on the condition `p`. -/
theorem State.skipIf_eq_of_iff (s : State) {c : Bool} {p : Prop} [Decidable p] (h : c = true ↔ p) :
    s.skipIf c = { s with pc := if p then s.pc + 4#16 else s.pc + 2#16 } := by
  simp only [State.skipIf_eq_update, h]

/-- A skip on equality, as SE makes it. -/
theorem State.skipIf_beq (s : State) (a b : Byte) :
    s.skipIf (a == b) = { s with pc := if a = b then s.pc + 4#16 else s.pc + 2#16 } :=
  s.skipIf_eq_of_iff beq_iff_eq

/-- A skip on inequality, as SNE makes it: the outcomes of SE exchanged. -/
theorem State.skipIf_bne (s : State) (a b : Byte) :
    s.skipIf (a != b) = { s with pc := if a = b then s.pc + 2#16 else s.pc + 4#16 } := by
  rw [s.skipIf_eq_of_iff bne_iff_ne, ite_not]

/-- Settles O20: the two skips, on a register and the immediate. -/
theorem skipsOnImmediate : Obligations.SkipsOnImmediate := fun x kk s =>
  ⟨congrArg Host.Outcome.next (s.skipIf_beq (s.getV x) kk),
    congrArg Host.Outcome.next (s.skipIf_bne (s.getV x) kk)⟩

/-- Settles O21: the two skips, on two registers; the arms drop the ignored nibble. -/
theorem skipsOnRegisters : Obligations.SkipsOnRegisters := fun x y _ s =>
  ⟨congrArg Host.Outcome.next (s.skipIf_beq (s.getV x) (s.getV y)),
    congrArg Host.Outcome.next (s.skipIf_bne (s.getV x) (s.getV y))⟩

end Sys2Proof.Machine

/-! Subroutines (40_cycle_and_control.md R105, R106). -/

namespace Sys2Proof.Machine

/-- Settles O22: the stack is not full, so the push succeeds. -/
theorem callPushesOwnAddress : Obligations.CallPushesOwnAddress := by
  intro nnn s hroom
  have hfull : ¬ s.stackFull = true := by
    rw [State.stackFull_iff]
    rintro ⟨depth, hdepth, hle⟩
    exact absurd (hroom depth hdepth) (Nat.not_lt.2 hle)
  rw [exec_call_eq, if_neg hfull]
  rfl

/-- Settles O23: the stack is full, so the push fails. -/
theorem callOnFullStackHalts : Obligations.CallOnFullStackHalts := by
  intro nnn s depth hdepth hle
  rw [exec_call_eq, if_pos (s.stackFull_iff.2 ⟨depth, hdepth, hle⟩)]
  rfl

/-- Settles O24: the pop takes the last entry, and the truncated sum is the wrapping one. -/
theorem retResumesAfterCaller : Obligations.RetResumesAfterCaller := by
  intro s rest a hstack
  simp only [exec_ret_eq, hstack, List.getLast?_concat, List.dropLast_concat, trunc16_toNat_add]
  rfl

/-- Settles O25: the pop of an empty stack fails. -/
theorem retOnEmptyStackHalts : Obligations.RetOnEmptyStackHalts := by
  intro s hstack
  rw [exec_ret_eq, List.getLast?_eq_none_iff.2 hstack]
  rfl

/-- A CALL that leaves the core running has pushed its own address. -/
theorem stack_of_exec_call {nnn : Addr12} {s t : State} (hexec : exec (.call nnn) s = .next t) (hrun : t.halted = false) :
    t.stack = s.stack ++ [s.pc] := by
  rw [exec_call_eq] at hexec
  obtain rfl := Host.Outcome.next.inj hexec
  split at hrun
  · cases hrun
  · next hroom => rw [if_neg hroom]; rfl

/-- Settles O26: the RET pops the address the CALL pushed. -/
theorem callThenRetResumes : Obligations.CallThenRetResumes := by
  intro nnn s t u hcall hkept hrun hstack
  exact retResumesAfterCaller u s.stack s.pc (hstack.trans (stack_of_exec_call hcall (hkept.trans hrun)))

/-- Settles O27: the arms of UNKNOWN and SYS are the fatal error itself. -/
theorem unknownWordsHalt : Obligations.UnknownWordsHalt := fun _ _ _ => ⟨rfl, rfl⟩

end Sys2Proof.Machine

/-! The PC after every instruction that leaves the core running (40_cycle_and_control.md R101). -/

namespace Sys2Proof.Machine

open Sys2Proof.Safety

theorem State.offsetTarget_eq (s : State) (nnn : Addr12) :
    s.offsetTarget nnn = nnn.setWidth 16 + (s.getV 0).setWidth 16 := by
  have hnnn := nnn.isLt
  have hv := (s.getV 0).isLt
  apply BitVec.eq_of_toNat_eq
  rw [s.toNat_offsetTarget, BitVec.toNat_add, BitVec.toNat_setWidth, BitVec.toNat_setWidth]
  omega

/-- A skip on the condition `p` goes where R102 says. -/
theorem State.skipIf_pc (s : State) {c : Bool} {p : Prop} [Decidable p] (h : c = true ↔ p) :
    (s.skipIf c).pc = skipPc s p := by
  rw [s.skipIf_eq_of_iff h]
  rfl

/-- SKP's condition over numbers. -/
theorem State.keyMatches_iff (s : State) (x : RegIdx) :
    s.keyMatches x = true ↔ s.key.pressed = true ∧ s.key.code.toNat = (s.getV x).toNat % 16 := by
  rw [State.keyMatches, Bool.and_eq_true, beq_iff_eq, ← BitVec.toNat_inj, BitVec.extractLsb'_toNat, Nat.shiftRight_zero]

/-- SKNP's condition, the exact negation (44_input_timer_random.md R233). -/
theorem State.not_keyMatches_iff (s : State) (x : RegIdx) :
    (!s.keyMatches x) = true ↔ s.key.pressed = false ∨ s.key.code.toNat ≠ (s.getV x).toNat % 16 := by
  rw [Bool.not_eq_true', ← Bool.not_eq_true, s.keyMatches_iff, not_and_or, Bool.not_eq_true]

/-- PC is where R101 sends it, unless the core has halted. -/
def PcFollows (i : Instr) (s t : State) : Prop := t.halted = false → t.pc = nextPc i s

theorem PcFollows.raiseFatal {i : Instr} {s : State} {f : Fault} {op : Word} : PcFollows i s (s.raiseFatal f op) :=
  fun hrun => nomatch hrun

/-- An instruction that raises a fatal error under some condition follows R101 where its result does. -/
theorem PcFollows.ite {i : Instr} {s u : State} {p : Prop} [Decidable p] {f : Fault} {op : Word} (hu : u.pc = nextPc i s) :
    PcFollows i s (if p then u else s.raiseFatal f op) := by
  split
  · exact fun _ => hu
  · exact .raiseFatal

/-- Every instruction follows R101; the cases left to the last arm make the default advance. -/
theorem exec_pcFollows (i : Instr) (s : State) : ∃ t, exec i s = .next t ∧ PcFollows i s t := by
  have hadvance : trunc16 (s.pc.toNat + 2) = s.pc + 2#16 := trunc16_toNat_add s.pc 2
  cases i with
  | ret =>
    refine ⟨_, exec_ret_eq s, ?_⟩
    split
    · next a hlast =>
      intro _
      show trunc16 (a.toNat + 2) = s.stack.getLastD 0x0000#16 + 2#16
      rw [trunc16_toNat_add, List.getLastD_eq_getLast?, hlast]
      rfl
    · exact .raiseFatal
  | call nnn =>
    refine ⟨_, exec_call_eq nnn s, ?_⟩
    split
    · exact .raiseFatal
    · exact fun _ => rfl
  | jp nnn => exact ⟨_, rfl, fun _ => rfl⟩
  | jpV0 nnn => exact ⟨_, rfl, fun _ => s.offsetTarget_eq nnn⟩
  | seVxKk x kk => exact ⟨_, rfl, fun _ => s.skipIf_pc beq_iff_eq⟩
  | sneVxKk x kk => exact ⟨_, rfl, fun _ => s.skipIf_pc bne_iff_ne⟩
  | seVxVy x y n => exact ⟨_, rfl, fun _ => s.skipIf_pc beq_iff_eq⟩
  | sneVxVy x y n => exact ⟨_, rfl, fun _ => s.skipIf_pc bne_iff_ne⟩
  | skp x => exact ⟨_, rfl, fun _ => s.skipIf_pc (s.keyMatches_iff x)⟩
  | sknp x => exact ⟨_, rfl, fun _ => s.skipIf_pc (s.not_keyMatches_iff x)⟩
  | ldVxK x =>
    refine ⟨_, rfl, fun _ => ?_⟩
    show _ = if s.key.pressed = true then s.pc + 2#16 else s.pc
    split
    · exact hadvance
    · rfl
  | drw x y n => exact ⟨_, exec_drw_eq x y n s, .ite hadvance⟩
  | ldBVx x => exact ⟨_, exec_ldBVx_eq x s, .ite hadvance⟩
  | ldMemVx x => exact ⟨_, exec_ldMemVx_eq x s, .ite hadvance⟩
  | ldVxMem x =>
    refine ⟨_, exec_ldVxMem_eq x s, .ite ?_⟩
    rw [State.loadRegs_frame]
    exact hadvance
  | sys | unknown => exact ⟨_, rfl, .raiseFatal⟩
  | _ => exact ⟨_, rfl, fun _ => hadvance⟩

/-- Settles O28: each instruction's result goes where its case of `nextPc` says, or it is the fatal error, which halts. -/
theorem pcUpdatePolicy : Obligations.PcUpdatePolicy :=
  fun i s _ _ hexec => exec_next_elim (exec_pcFollows i s) hexec

end Sys2Proof.Machine

/-! Immediate loads and the ALU (41_load_alu.md R140–R153): one rule for the functions that write no flag and one for those that
write it, then the instructions. -/

namespace Sys2Proof.Machine

theorem State.alu_eq_update (s : State) (fn : AluFn) (x : RegIdx) (a b : Byte) :
    s.alu fn x a b = { s with v := (s.alu fn x a b).v, pc := s.pc + 2#16 } := by
  rw [← trunc16_toNat_add]
  exact s.alu_frame fn x a b

/-- An ALU instruction whose function writes no flag writes its result to Vx alone. -/
theorem exec_alu_unflagged {i : Instr} {s : State} {fn : AluFn} {x : RegIdx} {a b result : Byte}
    (hexec : exec i s = .next (s.alu fn x a b)) (hresult : aluResult fn a b = result) (hflag : aluFlag fn a b = none) :
    ∃ t, exec i s = .next t ∧ t = { s with v := t.v, pc := s.pc + 2#16 } ∧
      ∀ r, t.getV r = if r = x then result else s.getV r := by
  refine ⟨_, hexec, s.alu_eq_update fn x a b, fun r => ?_⟩
  rw [State.getV_alu, hflag, hresult]

/-- An ALU instruction whose function writes the flag `p` writes its result to Vx and then `p` to VF, so that for x = F the flag
stays (decision D7). -/
theorem exec_alu_flagged {i : Instr} {s : State} {fn : AluFn} {x : RegIdx} {a b result : Byte} {flag : Bool} {p : Prop}
    [Decidable p] (hexec : exec i s = .next (s.alu fn x a b)) (hresult : aluResult fn a b = result)
    (hflag : aluFlag fn a b = some flag) (hp : flag = true ↔ p) :
    ∃ t, exec i s = .next t ∧ t = { s with v := t.v, pc := s.pc + 2#16 } ∧
      ∀ r, t.getV r = if r = 15 then (if p then 1#8 else 0#8) else if r = x then result else s.getV r := by
  have hbyte : flagByte flag = if p then 1#8 else 0#8 := by simp only [flagByte, hp]
  refine ⟨_, hexec, s.alu_eq_update fn x a b, fun r => ?_⟩
  rw [State.getV_alu, hflag, hresult, ← hbyte]
  rfl

/-- SHR's displaced bit over numbers. -/
theorem getLsbD_zero_iff (a : Byte) : a.getLsbD 0 = true ↔ a.toNat % 2 = 1 := by
  rw [BitVec.getLsbD, Nat.testBit_zero, decide_eq_true_iff]

/-- SHL's displaced bit over numbers: the top bit of a byte. -/
theorem getLsbD_seven_iff (a : Byte) : a.getLsbD 7 = true ↔ 128 ≤ a.toNat := by
  have := a.isLt
  rw [BitVec.getLsbD, Nat.testBit_eq_decide_div_mod_eq, decide_eq_true_iff]
  omega

/-- Settles O32: the truncated sum is the wrapping one, and the flag is the carry out of it. -/
theorem addRegistersSetsCarry : Obligations.AddRegistersSetsCarry := fun _ _ _ =>
  exec_alu_flagged (fn := .add) rfl (aluResult_add _ _) rfl decide_eq_true_iff

/-- Settles O33: both functions wrap, and the flag of each compares its own minuend and subtrahend. -/
theorem subtractionsSetStrictNoBorrow : Obligations.SubtractionsSetStrictNoBorrow := fun _ _ _ =>
  ⟨exec_alu_flagged (fn := .sub) rfl (aluResult_sub _ _) rfl decide_eq_true_iff,
    exec_alu_flagged (fn := .subn) rfl (aluResult_subn _ _) rfl decide_eq_true_iff⟩

/-- Settles O34: the bit shifted out is the remainder by 2, or the top bit. -/
theorem shiftsKeepDisplacedBit : Obligations.ShiftsKeepDisplacedBit := fun _ _ _ =>
  ⟨exec_alu_flagged (fn := .shr) rfl (aluResult_shr _ _) rfl (getLsbD_zero_iff _),
    exec_alu_flagged (fn := .shl) rfl (aluResult_shl _ _) rfl (getLsbD_seven_iff _)⟩

/-- Settles O30: neither function writes a flag; the sum is the wrapping one. -/
theorem immediateLoadAndAdd : Obligations.ImmediateLoadAndAdd := fun _ _ _ =>
  ⟨exec_alu_unflagged (fn := .pass) rfl rfl rfl, exec_alu_unflagged (fn := .addnc) rfl (aluResult_addnc _ _) rfl⟩

/-- Settles O31: none of these functions writes a flag, and each result is the definition's own. -/
theorem logicAndCopyKeepFlag : Obligations.LogicAndCopyKeepFlag := fun _ _ _ =>
  ⟨exec_alu_unflagged (fn := .or) rfl rfl rfl, exec_alu_unflagged (fn := .and) rfl rfl rfl,
    exec_alu_unflagged (fn := .xor) rfl rfl rfl, exec_alu_unflagged (fn := .pass) rfl rfl rfl⟩

end Sys2Proof.Machine

/-! The address register (42_address_memory.md R171–R173). -/

namespace Sys2Proof.Machine

/-- An instruction that ends in `setI` and the default advance writes I and PC alone. -/
theorem State.advance_setI (s : State) (w : Word) : (s.setI w).advance = { s with i := w, pc := s.pc + 2#16 } :=
  (s.setI w).advance_eq

/-- A byte added with truncation is its zero extension added with wrap. -/
theorem trunc16_toNat_add_byte (w : Word) (b : Byte) : trunc16 (w.toNat + b.toNat) = w + b.setWidth 16 := by
  rw [trunc16_toNat_add, BitVec.ofNat_toNat]

/-- No glyph address needs truncation: the largest is 255 · 5. -/
theorem toNat_glyphAddress (b : Byte) : (glyphAddress b).toNat = b.toNat * 5 := by
  have hb := b.isLt
  rw [glyphAddress, trunc16, BitVec.toNat_ofNat]
  omega

/-- Settles O37: each arm is one write of I, and the truncated sum is the wrapping one. -/
theorem addressRegisterSetAndAdd : Obligations.AddressRegisterSetAndAdd := by
  intro nnn x s
  constructor
  · exact congrArg Host.Outcome.next (s.advance_setI (zext16 nnn))
  · rw [← trunc16_toNat_add_byte, ← s.advance_setI]
    rfl

/-- Settles O38: the arm is one write of I, with an address that fits. -/
theorem fontAddressIsFiveTimes : Obligations.FontAddressIsFiveTimes := by
  intro x s
  exact ⟨_, congrArg Host.Outcome.next (s.advance_setI (glyphAddress (s.getV x))), rfl, toNat_glyphAddress (s.getV x)⟩

end Sys2Proof.Machine

/-! The stores at I (42_address_memory.md R174, R175): a store that fits changes memory and PC alone, and what memory then
reads as is `digitByte` and `dumpedByte`. -/

namespace Sys2Proof.Machine

open Sys2Proof.Safety

theorem State.advance_setMem (s : State) (m : Memory) : (s.setMem m).advance = { s with mem := m, pc := s.pc + 2#16 } :=
  (s.setMem m).advance_eq

theorem exec_ldBVx_of_fits {x : RegIdx} {s : State} (hin : s.base + 2 < 0x1000) :
    ∃ t, exec (.ldBVx x) s = .next t ∧ t = { s with mem := t.mem, pc := s.pc + 2#16 } ∧
      ∀ a, t.mem.read a = digitByte x s a := by
  rw [exec_ldBVx_eq, if_pos (Nat.succ_le_of_lt hin)]
  exact ⟨_, rfl, s.advance_setMem _, Memory.read_fill_digits s x⟩

theorem exec_ldMemVx_of_fits {x : RegIdx} {s : State} (hin : s.base + x.val < 0x1000) :
    ∃ t, exec (.ldMemVx x) s = .next t ∧ t = { s with mem := t.mem, pc := s.pc + 2#16 } ∧
      ∀ a, t.mem.read a = dumpedByte x s a := by
  rw [exec_ldMemVx_eq, if_pos hin]
  exact ⟨_, rfl, s.advance_setMem _, Memory.read_fill_dump s x⟩

theorem toNat_digitByte_hundreds (x : RegIdx) (s : State) : (digitByte x s s.base).toNat = (s.getV x).toNat / 100 := by
  have hv := (s.getV x).isLt
  rw [digitByte, if_pos rfl, BitVec.toNat_ofNat]
  omega

theorem toNat_digitByte_tens (x : RegIdx) (s : State) :
    (digitByte x s (s.base + 1)).toNat = (s.getV x).toNat / 10 % 10 := by
  rw [digitByte, if_neg (by omega), if_pos rfl, BitVec.toNat_ofNat]
  omega

theorem toNat_digitByte_ones (x : RegIdx) (s : State) : (digitByte x s (s.base + 2)).toNat = (s.getV x).toNat % 10 := by
  rw [digitByte, if_neg (by omega), if_neg (by omega), if_pos rfl, BitVec.toNat_ofNat]
  omega

theorem digitByte_outside (x : RegIdx) {s : State} {a : Nat} (hout : a < s.base ∨ s.base + 2 < a) :
    digitByte x s a = s.mem.read a := by
  rw [digitByte, if_neg (by omega), if_neg (by omega), if_neg (by omega)]

theorem dumpedByte_register {x r : RegIdx} (s : State) (hr : r.val ≤ x.val) :
    dumpedByte x s (s.base + r.val) = s.getV r := by
  rw [dumpedByte, if_pos (by omega), Nat.add_sub_cancel_left, Fin.ofNat_val_eq_self]

theorem dumpedByte_outside {x : RegIdx} {s : State} {a : Nat} (hout : a < s.base ∨ s.base + x.val < a) :
    dumpedByte x s a = s.mem.read a := by
  rw [dumpedByte, if_neg (by omega)]

/-- Settles O39: the three bytes are the quotients and remainders of Vx, which bound the digits and add up to it. -/
theorem bcdStoresDigits : Obligations.BcdStoresDigits := by
  intro x s hin
  obtain ⟨t, hexec, hframe, hread⟩ := exec_ldBVx_of_fits (x := x) hin
  refine ⟨t, hexec, hframe, ?_⟩
  have hv := (s.getV x).isLt
  simp only [hread, toNat_digitByte_hundreds, toNat_digitByte_tens, toNat_digitByte_ones]
  exact ⟨by omega, by omega, by omega, by omega, fun a => digitByte_outside x⟩

/-- Settles O40: memory reads as `dumpedByte`, within the block and outside it. -/
theorem dumpStoresRegisters : Obligations.DumpStoresRegisters := by
  intro x s hin
  obtain ⟨t, hexec, hframe, hread⟩ := exec_ldMemVx_of_fits hin
  refine ⟨t, hexec, hframe, fun r hr => ?_, fun a hout => ?_⟩
  · rw [hread, dumpedByte_register s hr]
  · rw [hread, dumpedByte_outside hout]

end Sys2Proof.Machine

/-! The register load (42_address_memory.md R176), and the load of what was dumped. -/

namespace Sys2Proof.Machine

open Sys2Proof.Safety

/-- A load of V0 to Vx changes general registers and PC alone. -/
theorem State.advance_loadRegs (s : State) (k : Nat) (bs : List Byte) :
    (s.loadRegs k bs).advance = { s with v := (s.loadRegs k bs).v, pc := s.pc + 2#16 } := by
  rw [State.advance_eq, s.loadRegs_frame]

/-- A register after V0 to Vx are loaded from the bytes at `a`. -/
theorem State.getV_loadRegs_bytesAt (s : State) (m : Memory) (a : Nat) (x r : RegIdx) :
    (s.loadRegs 0 (bytesAt m a (x.val + 1))).getV r = if r.val ≤ x.val then m.read (a + r.val) else s.getV r := by
  have hx := x.isLt
  rw [State.getV_loadRegs _ _ _ (by rw [length_bytesAt]; omega), length_bytesAt]
  by_cases hr : r.val ≤ x.val
  · rw [if_pos (by omega), if_pos hr, Nat.sub_zero, getD_bytesAt _ _ _ _ (by omega)]
  · rw [if_neg (by omega), if_neg hr]

/-- Settles O41: the block fits, so the load is `loadRegs` from V0 on. -/
theorem loadFillsRegisters : Obligations.LoadFillsRegisters := by
  intro x s hin
  rw [exec_ldVxMem_eq, State.base, if_pos hin]
  exact ⟨_, rfl, s.advance_loadRegs 0 _, s.getV_loadRegs_bytesAt s.mem s.base x⟩

/-- Settles O42: the dump keeps I, so the load reads the block the dump stored. -/
theorem dumpThenLoadRestores : Obligations.DumpThenLoadRestores := by
  intro x s t u hin hdump hmem hi
  obtain ⟨hframe, hstored, -⟩ := exec_next_elim (dumpStoresRegisters x s hin) hdump
  have hbase : u.i = s.i := hi.trans (by rw [hframe])
  obtain ⟨w, hload, -, hloaded⟩ := loadFillsRegisters x u (by rwa [hbase])
  refine ⟨w, hload, fun r hr => ?_⟩
  rw [hloaded, if_pos hr, hmem, State.base, hbase]
  exact hstored r hr

end Sys2Proof.Machine

/-! The display (43_display.md): what CLS and one draw do to cells and flag, and a second draw of the same sprite. -/

namespace Sys2Proof.Machine

open Sys2Proof.Safety

theorem State.advance_setFb (s : State) (fb : Framebuffer) : (s.setFb fb).advance = { s with fb := fb, pc := s.pc + 2#16 } :=
  (s.setFb fb).advance_eq

/-- Settles O47: the arm puts the cleared framebuffer into the state and advances. -/
theorem clsClearsEveryCell : Obligations.ClsClearsEveryCell := fun s =>
  ⟨_, congrArg Host.Outcome.next (s.advance_setFb Framebuffer.clearAll), rfl, Framebuffer.pixel_clearAll⟩

theorem flagByte_eq_one_iff (f : Bool) : flagByte f = 1#8 ↔ f = true := by cases f <;> decide

theorem flagByte_eq_one_or_zero (f : Bool) : flagByte f = 1#8 ∨ flagByte f = 0#8 := by cases f <;> decide

/-- A register after a draw: VF holds the collision flag, the rest are kept. -/
theorem State.getV_drawn (s : State) (b : Blit) (r : RegIdx) :
    (s.drawn b).getV r = if r = 15 then flagByte b.collision else s.getV r :=
  State.getV_setV (s.setFb b.fb) vf r (flagByte b.collision)

/-- A draw whose sprite lies within memory is one blit. -/
theorem exec_drw_of_fits {x y : RegIdx} {n : Nibble} {s : State} (hin : n = 0#4 ∨ s.i.toNat + n.toNat ≤ 0x1000) :
    exec (.drw x y n) s =
      .next (s.drawn (blit s.fb (s.getV x).toNat (s.getV y).toNat (bytesAt s.mem s.base n.toNat))) := by
  rw [exec_drw_eq, State.base, if_pos hin]

/-- A sprite has at most 15 rows, so no two of them wrap onto one row of cells. -/
theorem length_sprite_le (s : State) (n : Nibble) : (bytesAt s.mem s.base n.toNat).length ≤ 32 := by
  have hn := n.isLt
  rw [length_bytesAt]
  omega

/-- The collision detector starts at 0, so its latch tells of the covered cells alone (R203). -/
theorem blit_collision_iff (fb : Framebuffer) (ox oy : Nat) {sprite : List Byte} (hlen : sprite.length ≤ 32) :
    (blit fb ox oy sprite).collision = true ↔ ∃ px py, covers sprite ox oy px py ∧ fb.pixel px py = true := by
  rw [blit, Blit.collision_rows ox oy sprite hlen]
  simp

/-- Settles O48: the draw is one blit of at most 15 rows, and its latch is what VF receives. -/
theorem drwTogglesCoveredCells : Obligations.DrwTogglesCoveredCells := by
  intro x y n s hin
  have hlen := length_sprite_le s n
  refine ⟨_, exec_drw_of_fits hin, s.drawn_frame _, fun r hr => ?_, Blit.pixel_rows _ _ _ hlen _, ?_, ?_⟩
  · rw [State.getV_drawn, if_neg hr]
  · rw [State.getV_drawn, if_pos rfl]
    exact flagByte_eq_one_or_zero _
  · rw [State.getV_drawn, if_pos rfl, flagByte_eq_one_iff]
    exact blit_collision_iff _ _ _ hlen

/-- A byte other than 0 sets the pixel of one of the eight columns. -/
theorem exists_column_of_ne_zero {b : Byte} (hb : b ≠ 0#8) : ∃ c, c < 8 ∧ b.getLsbD (7 - c) = true := by
  by_contra hnone
  refine hb (BitVec.eq_of_getLsbD_eq fun k hk => ?_)
  rw [BitVec.getLsbD_zero, ← Bool.not_eq_true]
  intro hbit
  exact hnone ⟨7 - k, by omega, by rwa [show 7 - (7 - k) = k by omega]⟩

/-- A sprite covers some cell exactly when it has a 1 bit. -/
theorem exists_covers_iff (sprite : List Byte) (ox oy : Nat) :
    (∃ px py, covers sprite ox oy px py) ↔ ∃ b ∈ sprite, b ≠ 0#8 := by
  constructor
  · rintro ⟨px, py, c, r, -, hr, hbit, -, -⟩
    rw [List.getD_eq_getElem _ _ hr] at hbit
    refine ⟨sprite[r], List.getElem_mem hr, fun hzero => ?_⟩
    simp [hzero] at hbit
  · rintro ⟨b, hmem, hb⟩
    obtain ⟨r, hr, rfl⟩ := List.getElem_of_mem hmem
    obtain ⟨c, hc, hbit⟩ := exists_column_of_ne_zero hb
    exact ⟨wrapX (ox + c), wrapY (oy + r), c, r, hc, hr, by rwa [List.getD_eq_getElem _ _ hr], rfl, rfl⟩

/-- Settles O49: the second draw covers the cells of the first, which that one left toggled. -/
theorem drawTwiceRestores : Obligations.DrawTwiceRestores := by
  intro x y n s t hin hdraw hx hy
  obtain ⟨hframe, -, hcells, -, hflag⟩ := exec_next_elim (drwTogglesCoveredCells x y n s hin) hdraw
  have hi : t.i = s.i := by rw [hframe]
  have hmem : t.mem = s.mem := by rw [hframe]
  obtain ⟨u, hagain, -, -, hcells', -, hflag'⟩ := drwTogglesCoveredCells x y n t (by rwa [hi])
  rw [State.base, hi, ← State.base, hmem, hx, hy] at hcells' hflag'
  have herased : u.getV 15 = 1#8 ↔ ∃ px py,
      covers (bytesAt s.mem s.base n.toNat) (s.getV x).toNat (s.getV y).toNat px py ∧ s.fb.pixel px py = false := by
    refine hflag'.trans (exists₂_congr fun px py => and_congr_right fun hcov => ?_)
    rw [(hcells px py).1 hcov, Bool.not_eq_true']
  refine ⟨u, hagain, Framebuffer.ext_pixel fun px py => ?_, herased, fun hclear => ?_⟩
  · by_cases hcov : covers (bytesAt s.mem s.base n.toNat) (s.getV x).toNat (s.getV y).toNat px py
    · rw [(hcells' px py).1 hcov, (hcells px py).1 hcov, Bool.not_not]
    · rw [(hcells' px py).2 hcov, (hcells px py).2 hcov]
  · -- The first draw met no set cell, so every covered cell was clear.
    have hnone : ¬ t.getV 15 = 1#8 := by rw [hclear]; decide
    rw [herased, ← exists_covers_iff _ (s.getV x).toNat (s.getV y).toNat]
    refine exists₂_congr fun px py => and_iff_left_of_imp fun hcov => ?_
    exact Bool.eq_false_iff.2 fun hset => hnone (hflag.2 ⟨px, py, hcov, hset⟩)

end Sys2Proof.Machine

/-! Keys, timers and the draw (44_input_timer_random.md): one rule for the instructions that write Vx and advance, then the
instructions. -/

namespace Sys2Proof.Machine

theorem State.advance_setV (s : State) (x : RegIdx) (b : Byte) :
    (s.setV x b).advance = { s with v := s.v.set x b, pc := s.pc + 2#16 } :=
  (s.setV x b).advance_eq

theorem State.advance_setDt (s : State) (b : Byte) : (s.setDt b).advance = { s with dt := b, pc := s.pc + 2#16 } :=
  (s.setDt b).advance_eq

theorem State.advance_setSt (s : State) (b : Byte) : (s.setSt b).advance = { s with st := b, pc := s.pc + 2#16 } :=
  (s.setSt b).advance_eq

/-- An instruction that ends in a write of Vx and the default advance writes Vx and PC alone. -/
theorem exec_setV_advance {i : Instr} {s : State} {x : RegIdx} {b : Byte}
    (hexec : exec i s = .next (s.setV x b).advance) :
    ∃ t, exec i s = .next t ∧ t = { s with v := t.v, pc := s.pc + 2#16 } ∧
      ∀ r, t.getV r = if r = x then b else s.getV r :=
  ⟨_, hexec, s.advance_setV x b, fun r => s.getV_setV x r b⟩

/-- Settles O50: the arm writes Vx with the sampled draw under the mask. -/
theorem rndMasksTheDraw : Obligations.RndMasksTheDraw := fun _ _ _ => exec_setV_advance rfl

/-- Settles O51: both arms are skips, on `keyMatches` and on its negation. -/
theorem keySkips : Obligations.KeySkips := fun x s =>
  ⟨congrArg Host.Outcome.next (s.skipIf_eq_of_iff (s.keyMatches_iff x)),
    congrArg Host.Outcome.next (s.skipIf_eq_of_iff (s.not_keyMatches_iff x))⟩

/-- Settles O52: each arm is one write, of Vx, DT or ST, and the default advance. -/
theorem timerMoves : Obligations.TimerMoves := fun x s =>
  ⟨exec_setV_advance rfl, congrArg Host.Outcome.next (s.advance_setDt (s.getV x)),
    congrArg Host.Outcome.next (s.advance_setSt (s.getV x))⟩

theorem exec_ldVxK_of_not_pressed {x : RegIdx} {s : State} (hkey : s.key.pressed = false) :
    exec (.ldVxK x) s = .next s :=
  congrArg Host.Outcome.next (if_neg (Bool.eq_false_iff.1 hkey))

theorem exec_ldVxK_of_pressed {x : RegIdx} {s : State} (hkey : s.key.pressed = true) :
    exec (.ldVxK x) s = .next (s.setV x (s.key.code.setWidth 8)).advance :=
  congrArg Host.Outcome.next (if_pos hkey)

/-- Settles O53: without a key the state is kept; with one, Vx is written with the code, and four bits fit a byte. -/
theorem waitForKey : Obligations.WaitForKey := by
  intro x s
  refine ⟨exec_ldVxK_of_not_pressed, fun hkey => ?_⟩
  obtain ⟨t, hexec, hframe, hregs⟩ := exec_setV_advance (exec_ldVxK_of_pressed (x := x) hkey)
  refine ⟨t, hexec, hframe, fun r hr => ?_, ?_⟩
  · rw [hregs, if_neg hr]
  · rw [hregs, if_pos rfl]
    exact BitVec.toNat_setWidth_of_le (by decide)

end Sys2Proof.Machine

/-! The timer tick and the display tick (60_exceptions.md R275, R278), and the beeps of a sound count (R276). -/

namespace Sys2Proof.Machine

open Sys2Proof.Safety

theorem State.beepIfDue_outputs (s : State) :
    s.beepIfDue.outputs = if s.st = 1#8 then .beep :: s.outputs else s.outputs := by
  unfold State.beepIfDue
  split <;> rfl

theorem toNat_countDown (b : Byte) : (countDown b).toNat = b.toNat - 1 := by
  have := b.isLt
  rw [countDown, trunc8, BitVec.toNat_ofNat]
  omega

theorem tick_timer_of_running {s : State} (hrun : s.halted = false) :
    tick .timer s = .next { s with
      dt := countDown s.dt
      st := countDown s.st
      outputs := if s.st = 1#8 then Output.beep :: s.outputs else s.outputs } := by
  rw [tick, timerTick, if_neg (Bool.eq_false_iff.1 hrun), s.beepIfDue_frame, s.beepIfDue_outputs]
  rfl

theorem tick_display_of_running {s : State} (hrun : s.halted = false) :
    tick .display s = .next { s with outputs := Output.render s.fb :: s.outputs } := by
  rw [tick, displayTick, if_neg (Bool.eq_false_iff.1 hrun)]
  rfl

/-- Settles O54: the tick of a halted core is O10's, and the floor at zero is the truncated subtraction. -/
theorem timerTickCountsDown : Obligations.TimerTickCountsDown := fun s =>
  ⟨fun hhalt => (haltedCoreStaysAsItIs s hhalt).2 .timer,
    fun hrun => ⟨_, tick_timer_of_running hrun, rfl, toNat_countDown s.dt, toNat_countDown s.st⟩⟩

/-- Settles O55: the tick of a running core emits the snapshot. -/
theorem displayTickHandsOverFrame : Obligations.DisplayTickHandsOverFrame := fun _ => tick_display_of_running

/-! Beeps: only a timer tick at ST = 1 sends one. -/

theorem outputs_of_exec {i : Instr} {s t : State} (hexec : exec i s = .next t) : t.outputs = s.outputs := by
  obtain ⟨-, -, -, -, -, -, -, -, -, -, houtputs⟩ := onlyTheseWriteSpecialState i s t hexec
  exact houtputs

/-- A CPU tick sends nothing, wherever it ends. -/
theorem outputs_of_cpuTick {key : KeySample} {rand : Byte} {s t : State} (hcpu : cpuTick key rand s = .next t) :
    t.outputs = s.outputs := by
  unfold cpuTick at hcpu
  split at hcpu
  · rw [← Host.Outcome.next.inj hcpu]
  · cases hfetch : (s.sample key rand).fetch with
    | error f =>
      rw [hfetch] at hcpu
      rw [← Host.Outcome.next.inj hcpu, State.raiseFatal_outputs, State.sample_outputs]
    | ok op =>
      rw [hfetch] at hcpu
      exact outputs_of_exec (s := s.sample key rand) hcpu

theorem beepCount_of_tick_timer {s t : State} (hrun : s.halted = false) (htick : tick .timer s = .next t) :
    beepCount t = beepCount s + if s.st = 1#8 then 1 else 0 := by
  obtain rfl := Host.Outcome.next.inj ((tick_timer_of_running hrun).symm.trans htick)
  unfold beepCount
  split
  · exact List.count_cons_self
  · rfl

theorem st_of_tick_timer {s t : State} (hrun : s.halted = false) (htick : tick .timer s = .next t) :
    t.st.toNat = s.st.toNat - 1 := by
  obtain rfl := Host.Outcome.next.inj ((tick_timer_of_running hrun).symm.trans htick)
  exact toNat_countDown s.st

theorem beepCount_of_tick_ne_timer {k : Tick} {s t : State} (hrun : s.halted = false) (hk : k ≠ .timer)
    (htick : tick k s = .next t) : beepCount t = beepCount s := by
  unfold beepCount
  cases k with
  | cpu key rand => rw [outputs_of_cpuTick htick]
  | timer => exact absurd rfl hk
  | display =>
    obtain rfl := Host.Outcome.next.inj ((tick_display_of_running hrun).symm.trans htick)
    exact List.count_cons_of_ne (nofun : Output.render s.fb ≠ .beep)

/-- Settles O57, by induction on the number of ticks: the count reaches 1 just before the N-th timer tick, and only there does a
tick beep. -/
theorem oneBeepPerSoundCount : Obligations.OneBeepPerSoundCount := by
  intro ticks states k hrunOf hrunning hkept hst
  induction k with
  | zero => exact ⟨rfl, by rw [timerTicks_zero, if_neg (Nat.not_le.2 hst)]; rfl⟩
  | succ k ih =>
    obtain ⟨ihst, ihbeeps⟩ := ih (fun n hn => hrunning n (by omega)) fun n hn => hkept n (by omega)
    have hrun := hrunning k (by omega)
    rw [timerTicks_succ]
    by_cases htimer : ticks k = .timer
    · have htick : tick .timer (states k) = .next (states (k + 1)) := htimer ▸ hrunOf k
      have hdue : (states k).st = 1#8 ↔ (states 0).st.toNat - timerTicks ticks k = 1 := by
        rw [← ihst, ← BitVec.toNat_inj]; rfl
      rw [st_of_tick_timer hrun htick, beepCount_of_tick_timer hrun htick, ihst, ihbeeps, if_pos htimer]
      refine ⟨by omega, ?_⟩
      simp only [hdue]
      split_ifs <;> omega
    · rw [hkept k (by omega) htimer, beepCount_of_tick_ne_timer hrun htimer (hrunOf k), if_neg htimer]
      exact ⟨ihst, ihbeeps⟩

end Sys2Proof.Machine

/-! The fatal causes (60_exceptions.md R261, R263). -/

namespace Sys2Proof.Machine

open Sys2Proof.Safety

/-- When an instruction raises the fatal error of a cause: R261's table, cause by cause. -/
def FatalCondition (i : Instr) (s : State) (cause : BitVec 3) : Prop :=
  match cause with
  | 1#3 => (∃ op, i = .unknown op) ∨ (∃ nnn, i = .sys nnn)
  | 2#3 => i = .ret ∧ s.stack = []
  | 3#3 => ∃ nnn depth, i = .call nnn ∧ s.stackDepth = some depth ∧ depth ≤ s.stack.length
  | 4#3 =>
    (∃ x, i = .ldBVx x ∧ 0x1000 ≤ s.i.toNat + 2) ∨
    (∃ x : RegIdx, (i = .ldMemVx x ∨ i = .ldVxMem x) ∧ 0x1000 ≤ s.i.toNat + x.val) ∨
    (∃ (x y : RegIdx) (n : Nibble), i = .drw x y n ∧ n ≠ 0#4 ∧ 0x1000 < s.i.toNat + n.toNat)
  | _ => False

/-- An instruction whose condition for a cause is met latches that cause. -/
theorem fatalCause_of_fatalCondition {i : Instr} {s t : State} {cause : BitVec 3} (hcond : FatalCondition i s cause)
    (hexec : exec i s = .next t) : t.fatalCause = cause := by
  unfold FatalCondition at hcond
  split at hcond
  · obtain ⟨op, rfl⟩ | ⟨nnn, rfl⟩ := hcond
    · rw [← Host.Outcome.next.inj ((unknownWordsHalt op 0 s).1.symm.trans hexec)]
    · rw [← Host.Outcome.next.inj ((unknownWordsHalt 0 nnn s).2.symm.trans hexec)]
  · obtain ⟨rfl, hempty⟩ := hcond
    rw [← Host.Outcome.next.inj ((retOnEmptyStackHalts s hempty).symm.trans hexec)]
  · obtain ⟨nnn, depth, rfl, hdepth, hfull⟩ := hcond
    rw [← Host.Outcome.next.inj ((callOnFullStackHalts nnn s depth hdepth hfull).symm.trans hexec)]
  · rw [← Host.Outcome.next.inj ((blocksBeyondMemoryHalt i s hcond).symm.trans hexec)]
  · exact hcond.elim

/-- `t` is halted with a cause whose condition `i` meets in `s`, or keeps HALTED and the cause of `s`. -/
def Diagnosed (i : Instr) (s t : State) : Prop :=
  (t.halted = true ∧ FatalCondition i s t.fatalCause) ∨ (t.halted = s.halted ∧ t.fatalCause = s.fatalCause)

/-- An instruction that raises a fatal error where `p` fails is diagnosed where its other result keeps both fields. -/
theorem Diagnosed.ite {i : Instr} {s u : State} {p : Prop} [Decidable p] {f : Fault} {op : Word}
    (hkept : u.halted = s.halted ∧ u.fatalCause = s.fatalCause) (hcond : ¬ p → FatalCondition i s f.code) :
    Diagnosed i s (if p then u else s.raiseFatal f op) := by
  split
  · exact .inr hkept
  · next hp => exact .inl ⟨rfl, hcond hp⟩

theorem exec_diagnosed (i : Instr) (s : State) : ∃ t, exec i s = .next t ∧ Diagnosed i s t := by
  cases i with
  | unknown op => exact ⟨_, rfl, .inl ⟨rfl, .inl ⟨op, rfl⟩⟩⟩
  | sys nnn => exact ⟨_, rfl, .inl ⟨rfl, .inr ⟨nnn, rfl⟩⟩⟩
  | ret =>
    refine ⟨_, exec_ret_eq s, ?_⟩
    split
    · exact .inr ⟨rfl, rfl⟩
    · next hlast => exact .inl ⟨rfl, rfl, List.getLast?_eq_none_iff.1 hlast⟩
  | call nnn =>
    refine ⟨_, exec_call_eq nnn s, ?_⟩
    split
    · next hfull =>
      obtain ⟨depth, hdepth, hle⟩ := s.stackFull_iff.1 hfull
      exact .inl ⟨rfl, nnn, depth, rfl, hdepth, hle⟩
    · exact .inr ⟨rfl, rfl⟩
  | ldBVx x =>
    exact ⟨_, exec_ldBVx_eq x s, .ite ⟨rfl, rfl⟩ fun hout => .inl ⟨x, rfl, by rw [State.base] at hout; omega⟩⟩
  | ldMemVx x =>
    exact ⟨_, exec_ldMemVx_eq x s, .ite ⟨rfl, rfl⟩ fun hout => .inr (.inl ⟨x, .inl rfl, Nat.not_lt.1 hout⟩)⟩
  | ldVxMem x =>
    refine ⟨_, exec_ldVxMem_eq x s, .ite ?_ fun hout => .inr (.inl ⟨x, .inr rfl, Nat.not_lt.1 hout⟩)⟩
    rw [State.loadRegs_frame]
    exact ⟨rfl, rfl⟩
  | drw x y n =>
    refine ⟨_, exec_drw_eq x y n s, .ite ⟨rfl, rfl⟩ fun hout => .inr (.inr ⟨x, y, n, rfl, ?_⟩)⟩
    obtain ⟨hn, hbeyond⟩ := not_or.1 hout
    exact ⟨hn, Nat.not_le.1 hbeyond⟩
  | seVxKk | sneVxKk | seVxVy | sneVxVy | skp | sknp =>
    exact ⟨_, rfl, .inr (by rw [State.skipIf_eq]; exact ⟨rfl, rfl⟩)⟩
  | ldVxK x => exact ⟨_, rfl, .inr (by split <;> exact ⟨rfl, rfl⟩)⟩
  | _ => exact ⟨_, rfl, .inr ⟨rfl, rfl⟩⟩

/-- From a clear diagnostic, an instruction latches a cause exactly where it meets that cause's condition. -/
theorem fatalCause_eq_iff {i : Instr} {s t : State} {cause : BitVec 3} (hclear : s.fatalCause = 0#3)
    (hexec : exec i s = .next t) (hcause : cause ≠ 0#3) : t.fatalCause = cause ↔ FatalCondition i s cause := by
  refine ⟨?_, fun hcond => fatalCause_of_fatalCondition hcond hexec⟩
  rintro rfl
  obtain ⟨-, hcond⟩ | ⟨-, hkept⟩ := exec_next_elim (exec_diagnosed i s) hexec
  · exact hcond
  · exact absurd (hkept.trans hclear) hcause

/-- A running core with a clear diagnostic halts exactly where a cause is latched: cause 0 has no condition. -/
theorem halted_iff_fatalCause_ne_zero {i : Instr} {s t : State} (hrun : s.halted = false) (hclear : s.fatalCause = 0#3)
    (hexec : exec i s = .next t) : t.halted = true ↔ t.fatalCause ≠ 0#3 := by
  obtain ⟨hhalt, hcond⟩ | ⟨hhalt, hkept⟩ := exec_next_elim (exec_diagnosed i s) hexec
  · refine iff_of_true hhalt fun hzero => ?_
    rw [hzero] at hcond
    exact hcond
  · simp [hhalt, hkept, hrun, hclear]

/-- Settles O60: one case of the table for each cause. -/
theorem fatalCausesAreExactly : Obligations.FatalCausesAreExactly := fun _ _ _ hrun hclear hexec =>
  ⟨fatalCause_eq_iff hclear hexec (cause := 1#3) (by decide), fatalCause_eq_iff hclear hexec (cause := 2#3) (by decide),
    fatalCause_eq_iff hclear hexec (cause := 3#3) (by decide), fatalCause_eq_iff hclear hexec (cause := 4#3) (by decide),
    halted_iff_fatalCause_ne_zero hrun hclear hexec⟩

end Sys2Proof.Machine

/-! The loader (70_reset_and_hazards.md R301, R302): what memory reads as once the font and the image are placed. -/

namespace Sys2Proof.Machine

/-- Clearing overwrites the default font, the one part of memory that is not zero before. -/
theorem Memory.read_cleared (a : Nat) : Memory.cleared.read a = 0x00#8 := by
  rw [Memory.cleared, Memory.read_fill, List.length_replicate, Config.fontBase]
  split
  · exact List.getD_replicate 0#8 (by omega)
  · exact read_reset_beyond_font (by omega)

theorem Memory.wf_cleared : Memory.cleared.wf := Memory.wf_fill Memory.wf_nil _ _ (by decide)

/-- The font and an image that fits stay inside memory. -/
theorem Memory.wf_loaded (font : Vector Byte 80) {image : List Byte} (hfits : image.length ≤ 3584) :
    (Memory.loaded font image).wf := by
  refine Memory.wf_fill (Memory.wf_fill Memory.wf_cleared _ _ ?_) _ _ ?_
  · rw [Vector.length_toList]; decide
  · rw [Config.loadOffset, Config.memSize]; omega

/-- The image starts above the font, so neither hides a byte of the other. -/
theorem Memory.read_loaded (font : Vector Byte 80) (image : List Byte) (a : Nat) :
    (Memory.loaded font image).read a =
      if a < 80 then font.toList.getD a 0#8
      else if 0x200 ≤ a ∧ a < 0x200 + image.length then image.getD (a - 0x200) 0#8
      else 0x00#8 := by
  rw [Memory.loaded, Memory.read_fill, Memory.read_fill, Memory.read_cleared, Vector.length_toList, Config.fontBase,
    Config.loadOffset]
  by_cases hfont : a < 80
  · rw [if_neg (by omega), if_pos (by omega), if_pos hfont, Nat.sub_zero]
  · rw [if_neg (c := 0 ≤ a ∧ a < 0 + 80) (by omega), if_neg hfont]

/-- Settles O15: an image that fits is accepted, and memory is what `Memory.loaded` reads as. -/
theorem loadPlacesFontAndImage : Obligations.LoadPlacesFontAndImage := by
  intro s font image hfits
  exact ⟨_, if_pos hfits, Memory.wf_loaded font hfits, fun a _ => Memory.read_loaded font image a, rfl⟩

/-- Settles O16: the length test comes before anything is placed. -/
theorem loadRefusesOversizedImage : Obligations.LoadRefusesOversizedImage := fun _ _ _ hlong =>
  if_neg (Nat.not_le.2 hlong)

end Sys2Proof.Machine

/-! Ticks in order and runs of ticks (70_reset_and_hazards.md R304–R306): the strobe a step takes, the self-jump, and the delay
timer of a fair run. -/

namespace Sys2Proof.Machine

open Sys2Proof.Safety

/-- Settles O8: only the test of HALTED stands before the tick, and the strobe is read off the schedule. -/
theorem strobesComeInOrder : Obligations.StrobesComeInOrder := fun s =>
  ⟨fun hrun => if_neg (Bool.eq_false_iff.1 hrun), s.nextTick_cons, s.nextTick_nil⟩

/-- A jump to where PC stands changes nothing. -/
theorem exec_jp_of_pc_eq {s : State} {a : Addr12} (hpc : s.pc = zext16 a) : exec (.jp a) s = .next s :=
  congrArg Host.Outcome.next (show { s with pc := zext16 a } = s by rw [← hpc])

theorem State.fetch_sample (s : State) (key : KeySample) (rand : Byte) : (s.sample key rand).fetch = s.fetch := rfl

/-- Settles O29: the word fetched decodes back to the jump, whose target is PC. -/
theorem selfJumpRepeats : Obligations.SelfJumpRepeats := by
  rintro s a key rand hrun ⟨hpc, hfetch⟩
  rw [tick, cpuTick, if_neg (Bool.eq_false_iff.1 hrun), s.fetch_sample, hfetch, State.runFetched, decodeWord_encode rfl,
    exec_jp_of_pc_eq (s := s.sample key rand) hpc]
  rfl

theorem dt_of_tick_timer {s t : State} (hrun : s.halted = false) (htick : tick .timer s = .next t) :
    t.dt.toNat = s.dt.toNat - 1 := by
  obtain rfl := Host.Outcome.next.inj ((tick_timer_of_running hrun).symm.trans htick)
  exact toNat_countDown s.dt

/-- Settles O58: DT becomes constant, and the timer tick that fairness brings after that leaves it as it was, so it is zero. -/
theorem fairRunsExpireDelayTimer : Obligations.FairRunsExpireDelayTimer := by
  intro ticks states hrunOf hfair hrunning hfall
  have hanti : Antitone fun n => (states n).dt.toNat := antitone_nat_of_succ_le hfall
  obtain ⟨n, hconst⟩ := WellFoundedLT.antitone_chain_condition hanti
  obtain ⟨-, ⟨k, hk, htimer⟩, -⟩ := hfair n
  have hdown : (states (k + 1)).dt.toNat = (states k).dt.toNat - 1 := dt_of_tick_timer (hrunning k) (htimer ▸ hrunOf k)
  have hzero : (states n).dt.toNat = 0 := by
    have := hconst k hk
    have := hconst (k + 1) (by omega)
    omega
  exact ⟨n, fun m hm => BitVec.eq_of_toNat_eq ((hconst m hm).symm.trans hzero)⟩

end Sys2Proof.Machine
